-- ==== Sys2Proof/Word.lean ====
section
/-! DEFINITION. The widths of `bitplane_encoder` (00_scope.md rules R7, R9). All values are unsigned. -/

namespace Sys2Proof

/-- A byte of the output stream and the width of an accumulator (00_scope.md section 5). -/
abbrev Byte := BitVec 8

/-- A tile index, `tyi` or `txi` (10_state.md rule R12). -/
abbrev TileIndex := BitVec 4

/-- The pass, 0 or 1 (10_state.md rule R12). -/
abbrev Plane := BitVec 1

/-- A row or a column inside a tile (10_state.md rule R12). -/
abbrev Offset3 := BitVec 3

/-- The position counter, POSW = 15 bits (00_scope.md rule R7). -/
abbrev Pos := BitVec 15

/-- A stream offset, IDXW = 12 bits (00_scope.md rule R7). -/
abbrev Idx := BitVec 12

/-- A linear pixel address, PXAW = 14 bits (00_scope.md rule R7). -/
abbrev PixAddr := BitVec 14

/-- The control word of opcode_table.json, 20 bits (30_encoding.md rule R58). -/
abbrev ControlWord := BitVec 20

end Sys2Proof
end

