-- ==== Sys2Proof/Config.lean ====
section
/-! DEFINITION. What an implementation fixes: the constants of 00_scope.md rule R5, the open
parameter PIXW (rule R6); and the free inputs of steps for which the host queued nothing. -/

namespace Sys2Proof

/-- PixelBuffer width in pixels (00_scope.md rule R5). -/
abbrev Config.width : Nat := 128

/-- PixelBuffer height in pixels (00_scope.md rule R5). -/
abbrev Config.height : Nat := 128

/-- Tile side in pixels (00_scope.md rule R5). -/
abbrev Config.tile : Nat := 8

/-- Bytes per invocation, STREAM_LEN (00_scope.md rule R5). -/
abbrev Config.streamLen : Nat := 4096

/-- The open parameter PIXW, the number of bits of one PixelBuffer entry, with the constraint
`PIXW >= 2` (00_scope.md rule R6): two used bits, and the unused ones of 30_encoding.md rule R50.
A machine has one; it is the field `pixw` of its state (log entry 2), and every claim about all
states holds for every PIXW. -/
structure Pixw where
  /-- how many bits `PIXW-1 : 2` of an entry there are -/
  unused : Nat
  deriving DecidableEq, Repr

/-- PIXW as a number. -/
def Pixw.bits (w : Pixw) : Nat := w.unused + 2

/-- The constraint of 00_scope.md rule R6. -/
theorem Pixw.two_le_bits (w : Pixw) : 2 ≤ w.bits := Nat.le_add_left 2 w.unused

/-- The spec's default, PIXW = 8 (00_scope.md rule R6). -/
def Pixw.standard : Pixw := { unused := 6 }

/-- What an entry keeps of an integer. An entry is an unsigned integer of PIXW bits
(20_memory.md rule R31), a natural number below `2 ^ PIXW`, which the canonical form of PIX says of
each. -/
def Pixw.entry (w : Pixw) (v : Nat) : Nat := v % 2 ^ w.bits

/-- What an entry of PIX that nothing has written reads as. DESIGN CHOICE (log entry 3), unsafe. -/
def Config.unwrittenEntry : Nat := 0

/-- Free value: the level of `rst` in a step for which no input sample is queued (log entry 1). -/
opaque Config.freeRst : Nat → Bool

/-- Free value: the level of `start` in a step for which no input sample is queued (log entry 1). -/
opaque Config.freeStart : Nat → Bool

/-- Free value: the level of `out_ready` in a step for which no input sample is queued
(log entry 1). -/
opaque Config.freeOutReady : Nat → Bool

/-- Free value: what the host writes to PIX before a step for which no input sample is queued
(log entry 1, 20_memory.md rule R45). -/
opaque Config.freeHostWrites : Nat → List (PixAddr × Nat)

end Sys2Proof
end

