-- ==== Sys2Proof/Machine/State.lean ====
section
/-! DEFINITION. The state of `bitplane_encoder` as plain data: the five items of 10_state.md rule R10,
the history `stream` (rule R21), the PixelBuffer behind the pixel port with its entry width PIXW,
the queued input samples, and the model's own `tick` and `nets`. -/

namespace Sys2Proof.Machine

/-- The sequencer's phase; there is no fourth value (10_state.md rule R15). -/
inductive Phase where
  | idle | shift | emit
  deriving DecidableEq, Repr

/-- A write of the host to PIX (20_memory.md rule R45). Of `value` the entry keeps PIXW bits. -/
structure HostWrite where
  addr  : PixAddr
  value : Nat
  deriving DecidableEq, Repr

/-- What drives the block in one step: the input ports of 10_state.md rule R19 but `clk` (the step
itself) and `px_data` (answered from `pix`), and the host's writes to PIX that land before the step
(20_memory.md rule R45; DESIGN CHOICE, log entries 1 and 6, safe). -/
structure Inputs where
  rst        : Bool
  start      : Bool
  outReady   : Bool
  hostWrites : List HostWrite
  deriving DecidableEq, Repr

/-- The wires inside one step, by which its component operations hand values to each other
(40_bitplane_encoder.md rule R82). The model's own field: quiet between steps, so that nothing but
the spec's state is kept (10_state.md rules R10, R23). DESIGN CHOICE (log entry 4), safe. -/
structure Nets where
  /-- `a`, driven by PXADDR -/
  addr  : PixAddr
  /-- `px_re`, driven by PXREAD -/
  re    : Bool
  /-- `p`, the entry read by PXREAD -/
  pixel : Nat
  /-- the plane-0 bit of BITX -/
  b0    : BitVec 1
  /-- the plane-1 bit of BITX -/
  b1    : BitVec 1
  /-- `v`, the byte chosen by SEL -/
  byte  : Byte
  /-- the `MemWrite(n, 1, v)` made by XFER -/
  taken : Option (Idx × Byte)
  deriving DecidableEq, Repr

/-- The nets between steps. -/
def Nets.quiet : Nets :=
  { addr := 0, re := false, pixel := 0, b0 := 0, b1 := 0, byte := 0, taken := none }

/-- The PixelBuffer: (address, entry) pairs, addresses strictly rising, none equal to what an unlisted
address reads as. An entry is no byte, since PIXW is open (log entry 2). -/
abbrev Memory := List (Nat × Nat)

/-- The state. -/
structure State where
  /-- the parameter PIXW of this machine, 00_scope.md rule R6; no step writes it (log entry 2) -/
  pixw   : Pixw
  /-- 10_state.md rule R15 -/
  phase  : Phase
  /-- 10_state.md rule R12 -/
  pos    : Pos
  /-- `acc[0]`, 10_state.md rule R11 -/
  acc0   : Byte
  /-- `acc[1]`, 10_state.md rule R11 -/
  acc1   : Byte
  /-- 10_state.md rule R16 -/
  done   : Bool
  /-- the history of bytes transferred since the last START or RESET, 10_state.md rule R21 -/
  stream : List Byte
  /-- PIX, 20_memory.md rule R31; the host's, read-only to the block -/
  pix    : Memory
  /-- the input samples of the coming steps, oldest first -/
  inputs : List Inputs
  /-- the model's own: how many steps were taken, the argument of the free inputs (log entry 1) -/
  tick   : Nat
  /-- the model's own: the wires inside a step (log entry 4) -/
  nets   : Nets
  deriving DecidableEq, Repr

/-- The block cannot fail: the set of exception causes is empty (60_exceptions.md rule R140), so no
step raises a fault and this type has no constructor. -/
inductive Fault where
  deriving DecidableEq, Repr

/-- Why `exec` or `step` gives an instruction no meaning. No step of this machine ends so
(60_exceptions.md rule R140). -/
inductive Refusal where
  /-- An arm of `exec` that has no meaning; raised by none. Safe. -/
  | notModelled (mnemonic : String)
  /-- The decoder rejects the control word of the state; raised by `step` alone, and never, since
  the three phases have the codes 00, 01 and 10. Safe. -/
  | noControlWord
  deriving DecidableEq, Repr

/-- The machine right after reset (10_state.md rule R24), with the default PIXW of 00_scope.md
rule R6 (log entry 2). What rule R24 does not list: PIX with
nothing listed (log entry 3), no input sample queued (log entry 1), `tick` 0, nets quiet. -/
def State.reset : State :=
  { pixw := Pixw.standard
    phase := .idle, pos := 0, acc0 := 0x00, acc1 := 0x00, done := false, stream := []
    pix := [], inputs := [], tick := 0, nets := Nets.quiet }

end Sys2Proof.Machine
end

