-- ==== Sys2Proof/Machine/Flags.lean ====
section
/-! DEFINITION. The status flags: `done`, stored (10_state.md rule R16), and `busy`, derived
(rule R17). There are no condition codes. -/

namespace Sys2Proof.Machine

/-- `busy = (phase != IDLE)` (10_state.md rule R17). -/
def State.busy (s : State) : Bool := s.phase != .idle

/-- `done <- 1` (43_tile_serializer.md rule R114). -/
def State.setDone (s : State) : State := { s with done := true }

/-- `done <- 0` (40_bitplane_encoder.md rules R71, R73). -/
def State.clearDone (s : State) : State := { s with done := false }

end Sys2Proof.Machine
end

