-- ==== Sys2Proof/Machine/Operands.lean ====
section
/-! DEFINITION. The fields of `pos` and what is assembled from them, by concatenation only
(10_state.md rules R12, R13; 30_encoding.md rules R54, R55), and the arithmetic of the block
(44_bitplane_packer.md rule R135). -/

namespace Sys2Proof.Machine

/-- `pos[14:11]` (10_state.md rule R12). -/
def posTyi (pos : Pos) : TileIndex := pos.extractLsb' 11 4

/-- `pos[10:7]` (10_state.md rule R12). -/
def posTxi (pos : Pos) : TileIndex := pos.extractLsb' 7 4

/-- `pos[6]` (10_state.md rule R12). -/
def posPlane (pos : Pos) : Plane := pos.extractLsb' 6 1

/-- `pos[5:3]` (10_state.md rule R12). -/
def posRow (pos : Pos) : Offset3 := pos.extractLsb' 3 3

/-- `pos[2:0]` (10_state.md rule R12). -/
def posCol (pos : Pos) : Offset3 := pos.extractLsb' 0 3

/-- `idx = pos[14:3]` (10_state.md rule R13). -/
def posIdx (pos : Pos) : Idx := pos.extractLsb' 3 12

/-- `x = {txi, col}` (30_encoding.md rule R55). -/
def xOf (txi : TileIndex) (col : Offset3) : BitVec 7 := txi ++ col

/-- `y = {tyi, row}` (30_encoding.md rule R55). -/
def yOf (tyi : TileIndex) (row : Offset3) : BitVec 7 := tyi ++ row

/-- `px_addr = {y, x}` (30_encoding.md rule R55, 41_pixel_buffer_reader.md rule R90). -/
def pxAddrOf (tyi txi : TileIndex) (row col : Offset3) : PixAddr := yOf tyi row ++ xOf txi col

/-- `idx = {tyi, txi, plane, row}` (30_encoding.md rule R55). -/
def idxOf (tyi txi : TileIndex) (plane : Plane) (row : Offset3) : Idx := tyi ++ txi ++ plane ++ row

/-- `pos = {tyi, txi, plane, row, col}` (10_state.md rule R12). -/
def posOf (tyi txi : TileIndex) (plane : Plane) (row col : Offset3) : Pos :=
  tyi ++ txi ++ plane ++ row ++ col

/-- `{n, 000}`: the position of the first pixel of byte `n` (43_tile_serializer.md rule R113). -/
def posOfIdx (n : Idx) : Pos := n ++ (0 : BitVec 3)

/-- `pos` with `pos[2:0] <- col`, `pos[14:3]` unchanged (40_bitplane_encoder.md rule R74). -/
def posSetCol (pos : Pos) (col : Offset3) : Pos := posIdx pos ++ col

/-- Bit `p` of an entry (30_encoding.md rule R50, 42_bit_extractor.md rule R100). -/
def entryBit (p : Nat) (plane : Nat) : BitVec 1 := BitVec.ofBool (p.testBit plane)

/-- `PACK(A, b) = {A[6:0], b}` (44_bitplane_packer.md rule R130). -/
def packBit (A : Byte) (b : BitVec 1) : Byte := A.extractLsb' 0 7 ++ b

end Sys2Proof.Machine
end

