-- ==== Sys2Proof/Machine/Ops.lean ====
section
/-! DEFINITION. The named operations over memory and registers (20_memory.md rule R46, 10_state.md
rules R11, R14). The block takes no exception and returns from none (60_exceptions.md rules R140,
R145, R146), so there is no operation for either. -/

namespace Sys2Proof.Machine

/-- What the entry at an address reads as; an unlisted address reads as `Config.unwrittenEntry`
(log entry 3). -/
def Memory.read : Memory → Nat → Nat
  | [], _ => Config.unwrittenEntry
  | (b, v) :: rest, a => if a = b then v else Memory.read rest a

/-- The list with the cell of one address replaced, inserted or, for the value an unlisted address
reads as, removed. -/
def Memory.write : Memory → Nat → Nat → Memory
  | [], a, v => if v = Config.unwrittenEntry then [] else [(a, v)]
  | (b, w) :: rest, a, v =>
    if a < b then (if v = Config.unwrittenEntry then (b, w) :: rest else (a, v) :: (b, w) :: rest)
    else if a = b then (if v = Config.unwrittenEntry then rest else (a, v) :: rest)
    else (b, w) :: Memory.write rest a v

/-- Every address is above `lo`, they rise strictly, all are entries of PIX (20_memory.md rule R31),
each of PIXW bits, and none equals what an unlisted address reads as. -/
def Memory.wfAbove (w : Pixw) : Nat → Memory → Bool
  | _, [] => true
  | lo, (a, v) :: rest =>
    decide (lo ≤ a) && decide (a < 2 ^ 14) && decide (v < 2 ^ w.bits) &&
      v != Config.unwrittenEntry && Memory.wfAbove w (a + 1) rest

/-- The canonical form of a PIX whose entries have PIXW bits. -/
def Memory.wf (w : Pixw) (m : Memory) : Bool := Memory.wfAbove w 0 m

/-- `MemRead(a, 1)` (20_memory.md rule R46): the entry as the buffer stands at this step; it cannot
fail. -/
def State.memRead (s : State) (a : PixAddr) : Nat := Memory.read s.pix a.toNat

/-- `MemWrite(n, 1, v)` (20_memory.md rule R46): the sink takes `v` as byte `n`; the history grows. -/
def State.memWrite (s : State) (n : Idx) (v : Byte) : State :=
  { s with stream := s.stream ++ [v], nets.taken := some (n, v) }

/-- One write of the host to a PIX whose entries have PIXW bits (20_memory.md rule R45). -/
def Memory.hostWrite (w : Pixw) (m : Memory) (h : HostWrite) : Memory :=
  Memory.write m h.addr.toNat (w.entry h.value)

/-- The host's writes before one step, in order. -/
def Memory.hostWrites (w : Pixw) (m : Memory) (hs : List HostWrite) : Memory :=
  hs.foldl (Memory.hostWrite w) m

/-- The read of accumulator `acc[p]` (00_scope.md section 5). -/
def State.acc (s : State) (p : Plane) : Byte := if p = 1 then s.acc1 else s.acc0

/-- The write of both accumulators. -/
def State.setAccs (s : State) (a0 a1 : Byte) : State := { s with acc0 := a0, acc1 := a1 }

/-- `pos <- v`. -/
def State.setPos (s : State) (v : Pos) : State := { s with pos := v }

/-- `phase <- P`. -/
def State.setPhase (s : State) (p : Phase) : State := { s with phase := p }

/-- `stream <- []`, history only (10_state.md rule R21). -/
def State.clearStream (s : State) : State := { s with stream := [] }

end Sys2Proof.Machine
end

