-- ==== Sys2Proof/Machine/BitExtractor.lean ====
section
/-! DEFINITION. The sub-block bit_extractor: BITX (42_bit_extractor.md rule R100). -/

namespace Sys2Proof.Machine

/-- `(b0, b1) = (p[0], p[1])`, whatever PIXW is; no range check (rules R100, R103). -/
def bitsOf (p : Nat) : BitVec 1 × BitVec 1 := (entryBit p 0, entryBit p 1)

/-- BITX drives the two plane bits of the entry read. -/
def State.extractBits (s : State) : State :=
  { s with nets.b0 := (bitsOf s.nets.pixel).1, nets.b1 := (bitsOf s.nets.pixel).2 }

/-- The meaning of BITX (rule R100). -/
def execBitx (s : State) : Host.Outcome State Fault Refusal := .next s.extractBits

end Sys2Proof.Machine
end

