-- ==== Sys2Proof/Machine/BitplanePacker.lean ====
section
/-! DEFINITION. The sub-block bitplane_packer: PACK and CLEAR
(44_bitplane_packer.md rules R130, R131). -/

namespace Sys2Proof.Machine

/-- Both accumulators take their bit in the same step, whatever the pass is (rules R130, R133). -/
def State.packBits (s : State) : State :=
  s.setAccs (packBit s.acc0 s.nets.b0) (packBit s.acc1 s.nets.b1)

/-- `acc[0] <- 0x00; acc[1] <- 0x00` (rule R131). -/
def State.clearAccs (s : State) : State := s.setAccs 0x00 0x00

/-- The meaning of PACK (rule R130). -/
def execPack (s : State) : Host.Outcome State Fault Refusal := .next s.packBits

/-- The meaning of CLEAR (rule R131). -/
def execClear (s : State) : Host.Outcome State Fault Refusal := .next s.clearAccs

end Sys2Proof.Machine
end

