-- ==== Sys2Proof/Machine/PixelBufferReader.lean ====
section
/-! DEFINITION. The sub-block pixel_buffer_reader: PXADDR and PXREAD
(41_pixel_buffer_reader.md rules R90, R91). -/

namespace Sys2Proof.Machine

/-- PXADDR drives `a = {y, x}` (rule R90). -/
def State.driveAddr (s : State) (a : PixAddr) : State := { s with nets.addr := a }

/-- PXREAD strobes, presents `a` and samples the entry in the same step (rule R91). -/
def State.readPixel (s : State) (a : PixAddr) : State :=
  { s with nets.addr := a, nets.re := true, nets.pixel := s.memRead a }

/-- The meaning of PXADDR (rule R90). -/
def execPxaddr (tyi txi : TileIndex) (row col : Offset3) (s : State) :
    Host.Outcome State Fault Refusal :=
  .next (s.driveAddr (pxAddrOf tyi txi row col))

/-- The meaning of PXREAD (rule R91); its address is that of PXADDR. -/
def execPxread (tyi txi : TileIndex) (row col : Offset3) (s : State) :
    Host.Outcome State Fault Refusal :=
  .next (s.readPixel (pxAddrOf tyi txi row col))

end Sys2Proof.Machine
end

