-- ==== Sys2Proof/Machine/TileSerializer.lean ====
section
/-! DEFINITION. The sub-block tile_serializer: SEL, XFER, ADVANCE and FINISH
(43_tile_serializer.md rules R110, R111, R113, R114). -/

namespace Sys2Proof.Machine

/-- SEL drives `acc[plane]` (rule R110). -/
def State.selectByte (s : State) (plane : Plane) : State := { s with nets.byte := s.acc plane }

/-- XFER hands the byte of SEL to the sink as byte `n` (rule R111). -/
def State.transfer (s : State) (n : Idx) : State := s.memWrite n s.nets.byte

/-- `pos <- {idx + 1, 000}; phase <- SHIFT` (rule R113). -/
def State.advanceTo (s : State) (n : Idx) : State := (s.setPos (posOfIdx (n + 1))).setPhase .shift

/-- `pos <- 0; phase <- IDLE; done <- 1` (rule R114). -/
def State.finishRun (s : State) : State := ((s.setPos 0).setPhase .idle).setDone

/-- The meaning of SEL (rule R110). -/
def execSel (plane : Plane) (s : State) : Host.Outcome State Fault Refusal :=
  .next (s.selectByte plane)

/-- The meaning of XFER (rule R111). -/
def execXfer (tyi txi : TileIndex) (plane : Plane) (row : Offset3) (s : State) :
    Host.Outcome State Fault Refusal :=
  .next (s.transfer (idxOf tyi txi plane row))

/-- The meaning of ADVANCE (rule R113). -/
def execAdvance (tyi txi : TileIndex) (plane : Plane) (row : Offset3) (s : State) :
    Host.Outcome State Fault Refusal :=
  .next (s.advanceTo (idxOf tyi txi plane row))

/-- The meaning of FINISH (rule R114). -/
def execFinish (s : State) : Host.Outcome State Fault Refusal := .next s.finishRun

end Sys2Proof.Machine
end

