-- ==== Sys2Proof/Machine/Encoder.lean ====
section
/-! DEFINITION. The top level: the six step operations RESET, IDLE, START, SHIFT, EMIT and STALL
(40_bitplane_encoder.md rules R71 to R76). -/

namespace Sys2Proof.Machine

/-- The writes RESET and START share: `pos`, both accumulators, `done` and the history
(rules R71, R73). -/
def State.clearRun (s : State) : State := (((s.setPos 0).setAccs 0x00 0x00).clearDone).clearStream

/-- The end of SHIFT: `if col = 7 then phase <- EMIT; pos[2:0] <- (col + 1)[2:0]` (rule R74). -/
def State.countPixel (s : State) (col : Offset3) : State :=
  (if col = 7 then s.setPhase .emit else s).setPos (posSetCol s.pos (col + 1))

/-- The end of EMIT: `if idx = 0xFFF then FINISH else ADVANCE` (rule R75). -/
def State.nextByte (s : State) (n : Idx) : State :=
  if n = 0xFFF then s.finishRun else s.advanceTo n

/-- The meaning of RESET (rule R71). PIX, the queued inputs and the nets are not the block's. -/
def execReset (s : State) : Host.Outcome State Fault Refusal := .next (s.clearRun.setPhase .idle)

/-- The meaning of IDLE: no state is written (rule R72). -/
def execIdle (s : State) : Host.Outcome State Fault Refusal := .next s

/-- The meaning of START (rule R73). -/
def execStart (s : State) : Host.Outcome State Fault Refusal := .next (s.clearRun.setPhase .shift)

/-- The meaning of SHIFT: PXADDR, PXREAD, BITX, PACK, then the count of the pixel (rule R74). -/
def execShift (tyi txi : TileIndex) (_plane : Plane) (row col : Offset3) (s : State) :
    Host.Outcome State Fault Refusal :=
  let a := pxAddrOf tyi txi row col
  .next ((((s.driveAddr a).readPixel a).extractBits.packBits).countPixel col)

/-- The meaning of EMIT: SEL, XFER, CLEAR, then FINISH or ADVANCE (rule R75). -/
def execEmit (tyi txi : TileIndex) (plane : Plane) (row : Offset3) (s : State) :
    Host.Outcome State Fault Refusal :=
  let n := idxOf tyi txi plane row
  .next ((((s.selectByte plane).transfer n).clearAccs).nextByte n)

/-- The meaning of STALL: no state is written, SEL keeps presenting the byte (rule R76). -/
def execStall (plane : Plane) (s : State) : Host.Outcome State Fault Refusal :=
  .next (s.selectByte plane)

end Sys2Proof.Machine
end

