-- ==== Sys2Proof/Syntax.lean ====
section
/-! DEFINITION. The operations of `bitplane_encoder`: one constructor of `Instr` per row of
opcode_table.json (30_encoding.md rule R57), its arguments the fields the row names. -/

namespace Sys2Proof

/-- The operations of 30_encoding.md rule R57, with the fields of the control word that the row's
encoding names as operands. -/
inductive Instr where
  /-- Row RESET (rule R71). -/
  | reset
  /-- Row IDLE (rule R72). -/
  | idle
  /-- Row START (rule R73). -/
  | start
  /-- Row SHIFT (rule R74). -/
  | shift (tyi txi : TileIndex) (plane : Plane) (row col : Offset3)
  /-- Row EMIT (rule R75). -/
  | emit (tyi txi : TileIndex) (plane : Plane) (row : Offset3)
  /-- Row STALL (rule R76). -/
  | stall (plane : Plane)
  /-- Row PXADDR (rule R90). -/
  | pxaddr (tyi txi : TileIndex) (row col : Offset3)
  /-- Row PXREAD (rule R91). -/
  | pxread (tyi txi : TileIndex) (row col : Offset3)
  /-- Row BITX (rule R100). -/
  | bitx
  /-- Row PACK (rule R130), both accumulators. -/
  | pack
  /-- Row CLEAR (rule R131). -/
  | clear
  /-- Row SEL (rule R110). -/
  | sel (plane : Plane)
  /-- Row XFER (rule R111). -/
  | xfer (tyi txi : TileIndex) (plane : Plane) (row : Offset3)
  /-- Row ADVANCE (rule R113). -/
  | advance (tyi txi : TileIndex) (plane : Plane) (row : Offset3)
  /-- Row FINISH (rule R114). -/
  | finish
  deriving DecidableEq, Repr

/-- The rows of opcode_table.json by name (30_encoding.md rule R57). -/
inductive Mnemonic where
  | reset | idle | start | shift | emit | stall
  | pxaddr | pxread | bitx | pack | clear | sel | xfer | advance | finish
  deriving DecidableEq, Repr

/-- The two kinds of row (30_encoding.md rule R57). -/
inductive Kind where
  /-- exactly one is performed at each step -/
  | step
  /-- a part of a step operation -/
  | component
  deriving DecidableEq, Repr

/-- The row an operation belongs to. -/
def Instr.mnemonic : Instr → Mnemonic
  | .reset => .reset
  | .idle => .idle
  | .start => .start
  | .shift _ _ _ _ _ => .shift
  | .emit _ _ _ _ => .emit
  | .stall _ => .stall
  | .pxaddr _ _ _ _ => .pxaddr
  | .pxread _ _ _ _ => .pxread
  | .bitx => .bitx
  | .pack => .pack
  | .clear => .clear
  | .sel _ => .sel
  | .xfer _ _ _ _ => .xfer
  | .advance _ _ _ _ => .advance
  | .finish => .finish

/-- The column `kind` of the table of 30_encoding.md rule R57. -/
def Mnemonic.kind : Mnemonic → Kind
  | .reset | .idle | .start | .shift | .emit | .stall => .step
  | .pxaddr | .pxread | .bitx | .pack | .clear | .sel | .xfer | .advance | .finish => .component

/-- The kind of an operation. -/
def Instr.kind (i : Instr) : Kind := i.mnemonic.kind

end Sys2Proof
end

