-- ==== Sys2Proof/Machine/Dispatch.lean ====
section
/-! DEFINITION. One arm per operation of 30_encoding.md rule R57. -/

namespace Sys2Proof.Machine

def exec (i : Instr) (s : State) : Host.Outcome State Fault Refusal :=
  match i with
  | .reset => Sys2Proof.Machine.execReset s
  | .idle => Sys2Proof.Machine.execIdle s
  | .start => Sys2Proof.Machine.execStart s
  | .shift tyi txi plane row col => Sys2Proof.Machine.execShift tyi txi plane row col s
  | .emit tyi txi plane row => Sys2Proof.Machine.execEmit tyi txi plane row s
  | .stall plane => Sys2Proof.Machine.execStall plane s
  | .pxaddr tyi txi row col => Sys2Proof.Machine.execPxaddr tyi txi row col s
  | .pxread tyi txi row col => Sys2Proof.Machine.execPxread tyi txi row col s
  | .bitx => Sys2Proof.Machine.execBitx s
  | .pack => Sys2Proof.Machine.execPack s
  | .clear => Sys2Proof.Machine.execClear s
  | .sel plane => Sys2Proof.Machine.execSel plane s
  | .xfer tyi txi plane row => Sys2Proof.Machine.execXfer tyi txi plane row s
  | .advance tyi txi plane row => Sys2Proof.Machine.execAdvance tyi txi plane row s
  | .finish => Sys2Proof.Machine.execFinish s

end Sys2Proof.Machine
end

