-- ==== Sys2Proof/WellFormed.lean ====
section
/-! DEFINITION. Which operations and which control words are well formed. -/

namespace Sys2Proof

/-- The only check on operands: ADVANCE is selected when `idx != 0xFFF`; the all-ones `idx` belongs to
FINISH (30_encoding.md rules R57, R58). -/
def Instr.wellFormed : Instr → Bool
  | .advance tyi txi plane row => tyi ++ txi ++ plane ++ row != (0xFFF : BitVec 12)
  | .reset | .idle | .start | .shift _ _ _ _ _ | .emit _ _ _ _ | .stall _ | .pxaddr _ _ _ _
  | .pxread _ _ _ _ | .bitx | .pack | .clear | .sel _ | .xfer _ _ _ _ | .finish => true

/-- `ph = 11` names no phase and occurs in no row (30_encoding.md rule R58). -/
def ControlWord.wellFormed (cw : ControlWord) : Bool := cw.extractLsb' 15 2 != (3 : BitVec 2)

end Sys2Proof
end

