-- ==== Sys2Proof/Decode.lean ====
section
/-! DEFINITION. The decoder and the encoder of the control word of opcode_table.json
(30_encoding.md rules R57, R58): `cw = {rst, start, out_ready, ph[1:0], pos[14:0]}`, bit 19 is `rst`
and bit 0 the least significant bit of `pos`. The control word is a notation, not hardware. -/

namespace Sys2Proof

/-- Why a control word is rejected. -/
inductive DecodeError where
  /-- `ph = 11`: names no phase and occurs in no row (30_encoding.md rule R58). -/
  | noSuchPhase
  /-- No row of kind step matches. -/
  | noSuchRow
  /-- The word does not select the row that was asked for. -/
  | notSelected (m : Mnemonic)
  deriving DecidableEq, Repr

/-- The bit `rst` of a control word. -/
def cwRst (cw : ControlWord) : Bool := cw.getLsbD 19

/-- The bit `start` of a control word. -/
def cwStart (cw : ControlWord) : Bool := cw.getLsbD 18

/-- The bit `out_ready` of a control word. -/
def cwOutReady (cw : ControlWord) : Bool := cw.getLsbD 17

/-- The two bits `ph` of a control word. -/
def cwPhase (cw : ControlWord) : BitVec 2 := cw.extractLsb' 15 2

/-- The bits `pos` of a control word. -/
def cwPos (cw : ControlWord) : Pos := cw.extractLsb' 0 15

/-- The letters `y` of an encoding string. -/
def cwTyi (cw : ControlWord) : TileIndex := cw.extractLsb' 11 4

/-- The letters `x` of an encoding string. -/
def cwTxi (cw : ControlWord) : TileIndex := cw.extractLsb' 7 4

/-- The letter `p` of an encoding string. -/
def cwPlane (cw : ControlWord) : Plane := cw.extractLsb' 6 1

/-- The letters `r` of an encoding string. -/
def cwRow (cw : ControlWord) : Offset3 := cw.extractLsb' 3 3

/-- The letters `c` of an encoding string. -/
def cwCol (cw : ControlWord) : Offset3 := cw.extractLsb' 0 3

/-- The bits of a row's encoding string that are `0` or `1` (opcode_table.json). -/
def Mnemonic.mask : Mnemonic → ControlWord
  | .reset   => 0b10000000000000000000
  | .idle    => 0b11011000000000000000
  | .start   => 0b11011000000000000000
  | .shift   => 0b10011000000000000000
  | .emit    => 0b10111000000000000000
  | .stall   => 0b10111000000000000000
  | .pxaddr  => 0b10011000000000000000
  | .pxread  => 0b10011000000000000000
  | .bitx    => 0b10011000000000000000
  | .pack    => 0b10011000000000000000
  | .clear   => 0b10111000000000000000
  | .sel     => 0b10011000000000000000
  | .xfer    => 0b10111000000000000000
  | .advance => 0b10111000000000000000
  | .finish  => 0b10111111111111111000

/-- The values of those bits (opcode_table.json). -/
def Mnemonic.bits : Mnemonic → ControlWord
  | .reset   => 0b10000000000000000000
  | .idle    => 0b00000000000000000000
  | .start   => 0b01000000000000000000
  | .shift   => 0b00001000000000000000
  | .emit    => 0b00110000000000000000
  | .stall   => 0b00010000000000000000
  | .pxaddr  => 0b00001000000000000000
  | .pxread  => 0b00001000000000000000
  | .bitx    => 0b00001000000000000000
  | .pack    => 0b00001000000000000000
  | .clear   => 0b00110000000000000000
  | .sel     => 0b00010000000000000000
  | .xfer    => 0b00110000000000000000
  | .advance => 0b00110000000000000000
  | .finish  => 0b00110111111111111000

/-- The bits of a row's encoding string that are the letters of a field (opcode_table.json). -/
def Mnemonic.fieldMask : Mnemonic → ControlWord
  | .reset   => 0b00000000000000000000
  | .idle    => 0b00000000000000000000
  | .start   => 0b00000000000000000000
  | .shift   => 0b00000111111111111111
  | .emit    => 0b00000111111111111000
  | .stall   => 0b00000000000001000000
  | .pxaddr  => 0b00000111111110111111
  | .pxread  => 0b00000111111110111111
  | .bitx    => 0b00000000000000000000
  | .pack    => 0b00000000000000000000
  | .clear   => 0b00000000000000000000
  | .sel     => 0b00000000000001000000
  | .xfer    => 0b00000111111111111000
  | .advance => 0b00000111111111111000
  | .finish  => 0b00000000000000000000

/-- A control word has the required bits of a row's pattern. -/
def Mnemonic.matchesWord (m : Mnemonic) (cw : ControlWord) : Bool := cw &&& m.mask == m.bits

/-- A control word selects a row: it has the row's required bits, it names a phase, and for ADVANCE
it is not a word of FINISH, which takes precedence (30_encoding.md rule R58). -/
def Mnemonic.selects (m : Mnemonic) (cw : ControlWord) : Bool :=
  cwPhase cw != 3 && m.matchesWord cw && !(m == .advance && Mnemonic.finish.matchesWord cw)

/-- The operation of a row with its operands read from the fields of a control word. -/
def operandsOf (m : Mnemonic) (cw : ControlWord) : Instr :=
  match m with
  | .reset => .reset
  | .idle => .idle
  | .start => .start
  | .shift => .shift (cwTyi cw) (cwTxi cw) (cwPlane cw) (cwRow cw) (cwCol cw)
  | .emit => .emit (cwTyi cw) (cwTxi cw) (cwPlane cw) (cwRow cw)
  | .stall => .stall (cwPlane cw)
  | .pxaddr => .pxaddr (cwTyi cw) (cwTxi cw) (cwRow cw) (cwCol cw)
  | .pxread => .pxread (cwTyi cw) (cwTxi cw) (cwRow cw) (cwCol cw)
  | .bitx => .bitx
  | .pack => .pack
  | .clear => .clear
  | .sel => .sel (cwPlane cw)
  | .xfer => .xfer (cwTyi cw) (cwTxi cw) (cwPlane cw) (cwRow cw)
  | .advance => .advance (cwTyi cw) (cwTxi cw) (cwPlane cw) (cwRow cw)
  | .finish => .finish

/-- The rows of kind step, in the order of 40_bitplane_encoder.md rule R70. -/
def stepRows : List Mnemonic := [.reset, .start, .idle, .shift, .emit, .stall]

/-- The rows of kind component, in the order in which SHIFT and EMIT perform them
(40_bitplane_encoder.md rules R74, R75). -/
def componentRows : List Mnemonic :=
  [.pxaddr, .pxread, .bitx, .pack, .sel, .xfer, .clear, .finish, .advance]

/-- The decoder: the step operation a control word selects, exactly one for each word with
`ph != 11` (30_encoding.md rule R58). -/
def decode (cw : ControlWord) : Except DecodeError Instr :=
  if cwPhase cw = 3 then .error .noSuchPhase
  else
    match stepRows.find? (·.selects cw) with
    | some m => .ok (operandsOf m cw)
    | none => .error .noSuchRow

/-- The component operations the selected step operation is composed of, in order
(30_encoding.md rule R57). -/
def components (cw : ControlWord) : List Instr :=
  (componentRows.filter (·.selects cw)).map (operandsOf · cw)

/-- A control word read as a word of one given row, of either kind: rows of kind component overlap
the step rows by design (30_encoding.md rule R58). -/
def decodeAs (m : Mnemonic) (cw : ControlWord) : Except DecodeError Instr :=
  if cwPhase cw = 3 then .error .noSuchPhase
  else if m.selects cw then .ok (operandsOf m cw)
  else .error (.notSelected m)

/-- The encoder: the control word of an operation, written from its row's encoding string with 0 for
every `z`. -/
def encode : Instr → ControlWord
  | .reset => (0b10000 : BitVec 5) ++ (0 : BitVec 15)
  | .idle => (0b00000 : BitVec 5) ++ (0 : BitVec 15)
  | .start => (0b01000 : BitVec 5) ++ (0 : BitVec 15)
  | .shift tyi txi plane row col => (0b00001 : BitVec 5) ++ tyi ++ txi ++ plane ++ row ++ col
  | .emit tyi txi plane row => (0b00110 : BitVec 5) ++ tyi ++ txi ++ plane ++ row ++ (0 : BitVec 3)
  | .stall plane => (0b00010 : BitVec 5) ++ (0 : BitVec 8) ++ plane ++ (0 : BitVec 6)
  | .pxaddr tyi txi row col =>
    (0b00001 : BitVec 5) ++ tyi ++ txi ++ (0 : BitVec 1) ++ row ++ col
  | .pxread tyi txi row col =>
    (0b00001 : BitVec 5) ++ tyi ++ txi ++ (0 : BitVec 1) ++ row ++ col
  | .bitx => (0b00001 : BitVec 5) ++ (0 : BitVec 15)
  | .pack => (0b00001 : BitVec 5) ++ (0 : BitVec 15)
  | .clear => (0b00110 : BitVec 5) ++ (0 : BitVec 15)
  | .sel plane => (0b00010 : BitVec 5) ++ (0 : BitVec 8) ++ plane ++ (0 : BitVec 6)
  | .xfer tyi txi plane row => (0b00110 : BitVec 5) ++ tyi ++ txi ++ plane ++ row ++ (0 : BitVec 3)
  | .advance tyi txi plane row =>
    (0b00110 : BitVec 5) ++ tyi ++ txi ++ plane ++ row ++ (0 : BitVec 3)
  | .finish => (0b00110 : BitVec 5) ++ (0xFFF : BitVec 12) ++ (0 : BitVec 3)

/-- The control word that a table word of `nbits` bits stands for: 20 bits, every bit the table does
not give 0; a word that does not fit in 20 bits is no control word. -/
def controlWordOf (nbits w : Nat) : Option ControlWord :=
  if w % 2 ^ nbits < 2 ^ 20 then some (BitVec.ofNat 20 (w % 2 ^ nbits)) else none

/-- What the decoder reads from the word `w` of `nbits` bits, bit 0 the least significant bit of
`pos`. -/
def decodeTableWord (nbits w : Nat) : Option Instr :=
  match controlWordOf nbits w with
  | none => none
  | some cw =>
    match decode cw with
    | .ok i => some i
    | .error _ => none

end Sys2Proof
end

