-- ==== Sys2Proof/Machine/Fetch.lean ====
section
/-! DEFINITION. What stands around an operation in one step: the inputs of the step, the control word
that selects the operation (30_encoding.md rules R57, R58), the host's writes to PIX, and the nets
going quiet at its end. -/

namespace Sys2Proof.Machine

/-- The code `ph` of a phase, the notation of 30_encoding.md rule R58. -/
def phaseCode : Phase → BitVec 2
  | .idle => 0b00
  | .shift => 0b01
  | .emit => 0b10

/-- The phase of a code `ph`; 11 names none (30_encoding.md rule R58). -/
def phaseOfCode (ph : BitVec 2) : Option Phase :=
  if ph = 0b00 then some .idle
  else if ph = 0b01 then some .shift
  else if ph = 0b10 then some .emit
  else none

/-- The free inputs of a step for which no sample is queued (log entry 1). -/
def freeInputs (n : Nat) : Inputs :=
  { rst := Config.freeRst n, start := Config.freeStart n, outReady := Config.freeOutReady n
    hostWrites := (Config.freeHostWrites n).map fun w => { addr := w.1, value := w.2 } }

/-- The inputs of the coming step: the oldest queued sample, else free values (log entry 1). -/
def State.sampled (s : State) : Inputs :=
  match s.inputs with
  | [] => freeInputs s.tick
  | i :: _ => i

/-- The control word `{rst, start, out_ready, ph, pos}` (30_encoding.md rule R58). -/
def controlWord (i : Inputs) (phase : Phase) (pos : Pos) : ControlWord :=
  BitVec.ofBool i.rst ++ BitVec.ofBool i.start ++ BitVec.ofBool i.outReady ++ phaseCode phase ++ pos

/-- The control word of the coming step. -/
def State.fetchWord (s : State) : ControlWord := controlWord s.sampled s.phase s.pos

/-- The state in which the coming step's operation runs: its sample is used up and the host's writes
of that sample have landed (20_memory.md rule R45, log entry 6). -/
def State.sample (s : State) : State :=
  { s with pix := Memory.hostWrites s.pixw s.pix s.sampled.hostWrites
           inputs := s.inputs.tail
           tick := s.tick + 1 }

/-- The end of a step: the wires hold nothing between steps (10_state.md rule R23, log entry 4). -/
def State.settle (s : State) : State := { s with nets := Nets.quiet }

/-- The end of a step in each outcome. -/
def settleOutcome : Host.Outcome State Fault Refusal → Host.Outcome State Fault Refusal
  | .next t => .next t.settle
  | .fault r => .fault r
  | .refused r => .refused r

/-- `s` with the control word of its coming step set to `cw`: the three input levels in the coming
sample, the phase (kept where `ph` names none) and `pos`. -/
def State.withControlWord (s : State) (cw : ControlWord) : State :=
  let ws := match s.inputs with
    | [] => []
    | i :: _ => i.hostWrites
  { s with
    inputs := { rst := cwRst cw, start := cwStart cw, outReady := cwOutReady cw, hostWrites := ws }
      :: s.inputs.tail
    phase := (phaseOfCode (cwPhase cw)).getD s.phase
    pos := cwPos cw }

/-- `s` with a table word of `nbits` bits as the control word of its coming step (log entry 8). -/
def State.placeWord (s : State) (nbits w : Nat) : State :=
  match controlWordOf nbits w with
  | none => s
  | some cw => s.withControlWord cw

end Sys2Proof.Machine
end

