-- ==== Sys2Proof/Machine/Step.lean ====
section
/-! DEFINITION. One step of the block (40_bitplane_encoder.md rule R70). -/

namespace Sys2Proof.Machine

/-- One step, one rising edge of `clk`: the inputs are sampled, exactly one operation is selected by
the control word and performed, and the nets go quiet (rule R70). -/
def step (s : State) : Host.Outcome State Fault Refusal :=
  match decode s.fetchWord with
  | .ok i => settleOutcome (exec i s.sample)
  | .error _ => .refused .noControlWord

/-- `s` with the table word `w` of `nbits` bits as the control word that selects the operation of the
next step (log entry 8). -/
def State.withFetchWord (s : State) (nbits w : Nat) : State := s.placeWord nbits w

end Sys2Proof.Machine
end

