-- ==== Sys2Proof/Machine/Ports.lean ====
section
/-! DEFINITION. The output ports, each a function of the state at the start of the step
(10_state.md rule R18). -/

namespace Sys2Proof.Machine

/-- The output ports (10_state.md rule R18). -/
structure Outputs where
  busy     : Bool
  done     : Bool
  pxRe     : Bool
  pxAddr   : PixAddr
  outValid : Bool
  outData  : Byte
  deriving DecidableEq, Repr

/-- The port `px_addr`, `{tyi, row, txi, col}` in every phase (10_state.md rule R18). -/
def State.pxAddrPort (s : State) : PixAddr :=
  pxAddrOf (posTyi s.pos) (posTxi s.pos) (posRow s.pos) (posCol s.pos)

/-- The port `out_data`, `acc[plane]` in every phase (10_state.md rule R18). -/
def State.outDataPort (s : State) : Byte := s.acc (posPlane s.pos)

/-- All output ports (10_state.md rule R18). -/
def State.outputs (s : State) : Outputs :=
  { busy := s.busy, done := s.done, pxRe := s.phase == .shift, pxAddr := s.pxAddrPort
    outValid := s.phase == .emit, outData := s.outDataPort }

end Sys2Proof.Machine
end

