-- ==== Sys2Proof/Machine/Reference.lean ====
section
/-! DEFINITION. What an invocation computes, as the document says it: the algorithm of
40_bitplane_encoder.md rule R78 over unbounded integers, the content of the stream
(20_memory.md rule R35), the inverse mapping (30_encoding.md rule R63) and the generic form of ADVANCE
and FINISH (43_tile_serializer.md rule R119). No step uses these; the claims compare the machine with
them. -/

namespace Sys2Proof.Machine

/-- The loop values `0, 8, 16, ... n-8` (rule R78). -/
def tileOrigins (n : Nat) : List Nat := (List.range (n / 8)).map (8 * ·)

/-- One turn of the `col` loop of rule R78 on `(byte0, byte1)`. -/
def rowStep (buffer : Nat → Nat → Nat) (tx y : Nat) (b : Nat × Nat) (col : Nat) : Nat × Nat :=
  let pixel := buffer (tx + col) y
  ((b.1 <<< 1) ||| (pixel &&& 1), (b.2 <<< 1) ||| ((pixel >>> 1) &&& 1))

/-- `byte0` and `byte1` after the first `k` turns of the `col` loop (rule R78). -/
def rowBytes (buffer : Nat → Nat → Nat) (tx y k : Nat) : Nat × Nat :=
  (List.range k).foldl (rowStep buffer tx y) (0, 0)

/-- The sixteen bytes of one tile: the eight `byte0`, then the eight `byte1` (rule R78). -/
def tileBytes (buffer : Nat → Nat → Nat) (tx ty : Nat) : List Nat :=
  ((List.range 8).map fun row => (rowBytes buffer tx (ty + row) 8).1) ++
    ((List.range 8).map fun row => (rowBytes buffer tx (ty + row) 8).2)

/-- `encode(buffer, width, height)` (rule R78). -/
def encodeBuffer (buffer : Nat → Nat → Nat) (width height : Nat) : List Nat :=
  (tileOrigins height).flatMap fun ty => (tileOrigins width).flatMap fun tx =>
    tileBytes buffer tx ty

/-- `bit_p(v) = (v >> p) & 1` (rule R35). -/
def bitP (p v : Nat) : Nat := (v >>> p) &&& 1

/-- `n(tyi, txi, p, r)`, with `wt = W/8` tiles in a tile row (rule R35). -/
def streamOffset (wt tyi txi p r : Nat) : Nat := (tyi * wt + txi) * 16 + p * 8 + r

/-- `S[n]`, the sum of rule R35. -/
def streamValue (buffer : Nat → Nat → Nat) (tyi txi p r : Nat) : Nat :=
  ((List.range 8).map fun c => bitP p (buffer (8 * txi + c) (8 * tyi + r)) <<< (7 - c)).sum

/-- `Q[x, y]` of a stream (30_encoding.md rule R63). -/
def decodePixel (S : List Nat) (x y : Nat) : Nat :=
  let n0 := ((y >>> 3) * 16 + (x >>> 3)) * 16 + (y &&& 7)
  let n1 := n0 + 8
  let k := 7 - (x &&& 7)
  (((S.getD n1 0 >>> k) &&& 1) <<< 1) ||| ((S.getD n0 0 >>> k) &&& 1)

/-- The buffer behind the pixel port, `PIX[x, y]` at `a = y * 128 + x` (20_memory.md rule R32). -/
def bufferOf (m : Memory) (x y : Nat) : Nat := Memory.read m (y * 128 + x)

/-- The counters of the generic form (rule R119). -/
structure Counters where
  tyi   : Nat
  txi   : Nat
  plane : Nat
  row   : Nat
  deriving DecidableEq, Repr

/-- The generic ADVANCE for `W`, `H` positive multiples of 8, with `wt = W/8` and `ht = H/8`;
`none` is FINISH (rule R119). -/
def genericAdvance (wt ht : Nat) (k : Counters) : Option Counters :=
  if k.row < 7 then some { k with row := k.row + 1 }
  else if k.plane = 0 then some { k with row := 0, plane := 1 }
  else if k.txi < wt - 1 then some { k with row := 0, plane := 0, txi := k.txi + 1 }
  else if k.tyi < ht - 1 then some { tyi := k.tyi + 1, txi := 0, plane := 0, row := 0 }
  else none

end Sys2Proof.Machine
end

