-- ==== Sys2Proof/Safety.lean ====
section
/-! DEFINITION. The terms in which claims about runs are stated: the invariants of reachable states
(10_state.md rule R25), launch (70_reset_and_hazards.md rule R161), the constant buffer (rule R164),
the fair sink (rule R166) and the operations a run performs. -/

namespace Sys2Proof.Machine

/-- The five items of state and the history at their reset values (10_state.md rule R24). -/
def State.blockReset (s : State) : Prop :=
  s.phase = .idle ∧ s.pos = 0 ∧ s.acc0 = 0 ∧ s.acc1 = 0 ∧ s.done = false ∧ s.stream = []

/-- A state in which a run may begin: the block has been reset, PIX and the queued inputs are
whatever the host made them (70_reset_and_hazards.md rules R161, R163). -/
def State.launch (s : State) : Prop := s.blockReset ∧ s.nets = Nets.quiet ∧
  Memory.wf s.pixw s.pix = true

/-- The invariants (a) to (e) of 10_state.md rule R25. -/
structure State.Inv (s : State) : Prop where
  /-- (a) -/
  idleClear : s.phase = .idle → s.pos = 0 ∧ s.acc0 = 0 ∧ s.acc1 = 0
  /-- (b) -/
  emitCol : s.phase = .emit → posCol s.pos = 0
  /-- (c): bits 7 down to `col` of each accumulator are 0 -/
  shiftAcc : s.phase = .shift → ∀ j, (posCol s.pos).toNat ≤ j →
    s.acc0.getLsbD j = false ∧ s.acc1.getLsbD j = false
  /-- (d) -/
  doneIdle : s.done = true → s.phase = .idle
  /-- (e), a byte is being built or offered -/
  busyLength : s.phase = .shift ∨ s.phase = .emit → s.stream.length = (posIdx s.pos).toNat
  /-- (e), idle -/
  idleLength : s.phase = .idle → s.stream.length = 0 ∨ s.stream.length = 4096
  /-- (e), the flag -/
  doneIff : s.done = true ↔ (s.phase = .idle ∧ s.stream.length = 4096)

/-- States a run reaches from a launch state, whatever the inputs. -/
inductive Reachable : State → Prop where
  | launch (s : State) : s.launch → Reachable s
  | step (s t : State) : Reachable s → Sys2Proof.Machine.step s = .next t → Reachable t

/-- The operation the coming step performs. -/
def State.operation (s : State) : Option Instr :=
  match decode s.fetchWord with
  | .ok i => some i
  | .error _ => none

/-- The step operations of the first `n` steps, in order. -/
def operations : Nat → State → List Instr
  | 0, _ => []
  | n + 1, s =>
    match s.operation, Sys2Proof.Machine.step s with
    | some i, .next t => i :: operations n t
    | _, _ => []

/-- `s` with the first `n` inputs of a schedule queued. -/
def State.scheduled (s : State) (sched : Nat → Inputs) (n : Nat) : State :=
  { s with inputs := (List.range n).map sched }

/-- Operations performed one after the other on one state; stops at the first that gives none. -/
def execAll : List Instr → State → Host.Outcome State Fault Refusal
  | [], s => .next s
  | i :: rest, s =>
    match exec i s with
    | .next t => execAll rest t
    | .fault r => .fault r
    | .refused r => .refused r

/-- What no operation writes: PIXW, every entry of PIX, the queued inputs, the tick. -/
structure State.SameHost (s t : State) : Prop where
  pixw : t.pixw = s.pixw
  pix : ∀ a, Memory.read t.pix a = Memory.read s.pix a
  inputs : t.inputs = s.inputs
  tick : t.tick = s.tick

/-- The five items of state and every byte of the stream are as before. -/
structure State.SameBlock (s t : State) : Prop where
  phase : t.phase = s.phase
  pos : t.pos = s.pos
  acc0 : t.acc0 = s.acc0
  acc1 : t.acc1 = s.acc1
  done : t.done = s.done
  stream : ∀ k : Nat, t.stream[k]? = s.stream[k]?

/-- The operation rule R70 of 40_bitplane_encoder.md names for the inputs, the phase and `pos`. -/
def operationOf (i : Inputs) (phase : Phase) (pos : Pos) : Instr :=
  if i.rst = true then .reset
  else if phase = .idle ∧ i.start = true then .start
  else if phase = .idle then .idle
  else if phase = .shift then
    .shift (posTyi pos) (posTxi pos) (posPlane pos) (posRow pos) (posCol pos)
  else if phase = .emit ∧ i.outReady = true then
    .emit (posTyi pos) (posTxi pos) (posPlane pos) (posRow pos)
  else .stall (posPlane pos)

/-- Up to step `m` of a schedule that begins with a START the invocation has not ended: the block is
busy after each of the first `m` steps. -/
def State.running (s : State) (sched : Nat → Inputs) (m : Nat) : Prop :=
  ∀ (k : Nat) (u : State), 1 ≤ k → k ≤ m →
    Host.Core.run Sys2Proof.core k (s.scheduled sched k) = .next u → u.busy = true

/-- The premises of 40_bitplane_encoder.md rule R77 on the host, up to the end of the invocation: no
reset, and PIX is constant from the START on. -/
def undisturbed (s : State) (sched : Nat → Inputs) : Prop :=
  ∀ m, s.running sched m → (sched m).rst = false ∧ (1 ≤ m → (sched m).hostWrites = [])

/-- The contents of PIX from the first step of a schedule on: what the host's writes of its first
sample make of them. -/
def State.pixAtStart (s : State) (sched : Nat → Inputs) : Memory :=
  Memory.hostWrites s.pixw s.pix (sched 0).hostWrites

/-- `sink_fair`: `out_ready = 1` at infinitely many steps (40_bitplane_encoder.md rule R77,
70_reset_and_hazards.md rule R166). -/
def sinkFair (sched : Nat → Inputs) : Prop := ∀ n, ∃ m, n ≤ m ∧ (sched m).outReady = true

/-- The weaker form of the premise: `out_ready = 1` at some step of every run of steps of the
invocation in which `out_valid = 1` (40_bitplane_encoder.md rule R77). -/
def sinkTakes (s : State) (sched : Nat → Inputs) : Prop :=
  ∀ (m : Nat) (u : State), s.running sched m →
    Host.Core.run Sys2Proof.core m (s.scheduled sched m) = .next u →
    u.outputs.outValid = true → ∃ k, m ≤ k ∧ (sched k).outReady = true

/-- The state after a completed invocation: the reset values but `done = 1`
(10_state.md rule R22, 43_tile_serializer.md rule R114). -/
def State.completed (s : State) : Prop :=
  s.phase = .idle ∧ s.pos = 0 ∧ s.acc0 = 0 ∧ s.acc1 = 0 ∧ s.done = true

/-- The bytes transferred so far and the byte being built are those of `encode(PIX)`: the history is the
first `idx` bytes, and each accumulator holds the first `col` turns of its row (in phase EMIT all
eight). In phase IDLE the history is empty or whole. -/
structure State.Encoding (s : State) : Prop where
  inv : s.Inv
  bytes : s.stream.map BitVec.toNat =
    (encodeBuffer (bufferOf s.pix) 128 128).take s.stream.length
  accs : s.phase ≠ .idle →
    (s.acc0.toNat, s.acc1.toNat) =
      rowBytes (bufferOf s.pix) (8 * (posTxi s.pos).toNat)
        (8 * (posTyi s.pos).toNat + (posRow s.pos).toNat)
        (if s.phase = .emit then 8 else (posCol s.pos).toNat)

/-- Two states that a host and a sink cannot tell apart: the two low bits of every entry agree, PIXW and
the other bits of entries may differ (00_scope.md rule R6, 40_bitplane_encoder.md rule R80,
42_bit_extractor.md rule R101). -/
structure State.AgreeLow (s t : State) : Prop where
  phase : s.phase = t.phase
  pos : s.pos = t.pos
  acc0 : s.acc0 = t.acc0
  acc1 : s.acc1 = t.acc1
  done : s.done = t.done
  stream : s.stream = t.stream
  inputs : s.inputs = t.inputs
  tick : s.tick = t.tick
  pix : ∀ a < 2 ^ 14, Memory.read s.pix a &&& 3 = Memory.read t.pix a &&& 3

end Sys2Proof.Machine
end

