-- ==== Sys2Proof/Certificates/Slice0/Obligations.lean ====
section
/-! DEFINITION. The statements about the model. Each names the rule of spec/ it comes from. -/

open Sys2Proof Sys2Proof.Machine

/-! ## Control words -/

/-- Decode and encode agree for every well-formed operation: its word read as a word of its row gives
it back; for a step operation so does the decoder; a component is among the components its word
selects (30_encoding.md section 4). -/
def Obligations.DecodeEncodeAgree : Prop :=
  ∀ i : Instr, i.wellFormed = true →
    decodeAs i.mnemonic (encode i) = .ok i ∧
      (i.kind = .step → decode (encode i) = .ok i) ∧
      (i.kind = .component → i ∈ components (encode i))

/-- What a row reads from a word is well formed, of that row, and encodes to the word with the bits the
row does not look at cleared (30_encoding.md section 4). -/
def Obligations.EncodeDecodeAgree : Prop :=
  ∀ (m : Mnemonic) (cw : ControlWord) (i : Instr), decodeAs m cw = .ok i →
    i.mnemonic = m ∧ i.wellFormed = true ∧ encode i = cw &&& (m.mask ||| m.fieldMask)

/-- Exactly one row of kind step matches a control word whose `ph` is not 11, and the decoder gives an
operation of it; a word with `ph` 11 is rejected by name (30_encoding.md section 4, rule R58; the
rejection of `ph` 11 with `rst` 1 is the model's reading, log entry 7). -/
def Obligations.OneStepRowPerWord : Prop :=
  ∀ cw : ControlWord,
    (cwPhase cw ≠ 3 → ∃ m, stepRows.filter (·.matchesWord cw) = [m] ∧
      decode cw = .ok (operandsOf m cw) ∧ m.kind = .step) ∧
    (cwPhase cw = 3 → decode cw = .error .noSuchPhase ∧ components cw = [] ∧
      ∀ m, decodeAs m cw = .error .noSuchPhase)

/-- The component operations that the step operations are made of (30_encoding.md rule R57). -/
def Obligations.ComponentsOfStepOperations : Prop :=
  ∀ (i : Inputs) (phase : Phase) (pos : Pos),
    components (controlWord i phase pos) =
      if i.rst = true then []
      else match phase with
        | .idle => []
        | .shift =>
          [.pxaddr (posTyi pos) (posTxi pos) (posRow pos) (posCol pos),
            .pxread (posTyi pos) (posTxi pos) (posRow pos) (posCol pos), .bitx, .pack]
        | .emit =>
          if i.outReady = true then
            [.sel (posPlane pos), .xfer (posTyi pos) (posTxi pos) (posPlane pos) (posRow pos), .clear,
              if posIdx pos = 0xFFF then .finish
              else .advance (posTyi pos) (posTxi pos) (posPlane pos) (posRow pos)]
          else [.sel (posPlane pos)]

/-- Control words written from the encoding strings decode to the operations they stand for. -/
def Obligations.WrittenWordsDecode : Prop :=
  decodeTableWord 24 0x80000 = some .reset ∧
    decodeTableWord 24 0x00000 = some .idle ∧
    decodeTableWord 24 0x40000 = some .start ∧
    decodeTableWord 24 0x09ABD = some (.shift 3 5 0 7 5) ∧
    decodeTableWord 24 0x31AF8 = some (.emit 3 5 1 7) ∧
    decodeTableWord 24 0x10040 = some (.stall 1) ∧
    decodeAs .xfer 0x31AF8 = .ok (.xfer 3 5 1 7) ∧
    decodeAs .finish 0x37FF8 = .ok .finish

/-- A word placed for the next step is the control word of that step. -/
def Obligations.PlacedWordIsFetched : Prop :=
  ∀ (s : State) (w : Nat), w < 2 ^ 20 → cwPhase (BitVec.ofNat 20 w) ≠ 3 →
    (s.withFetchWord 24 w).fetchWord = BitVec.ofNat 20 w ∧
      ∃ i t, decodeTableWord 24 w = some i ∧
        exec i (s.withFetchWord 24 w).sample = .next t ∧
        step (s.withFetchWord 24 w) = .next t.settle

/-! ## The step function -/

/-- A step runs the decoded operation on the state whose input sample is taken and whose host writes
have landed, and the nets go quiet at its end. -/
def Obligations.StepRunsDecodedOperation : Prop :=
  ∀ (s : State) (i : Instr), decode s.fetchWord = .ok i →
    step s = settleOutcome (exec i s.sample)

/-- The step function of 40_bitplane_encoder.md rule R70: the operation it performs. -/
def Obligations.StepPerformsSelectedOperation : Prop :=
  ∀ s : State, step s = settleOutcome (exec (operationOf s.sampled s.phase s.pos) s.sample)

/-- The block raises nothing: every operation and every step has a next state
(60_exceptions.md rule R140). -/
def Obligations.NothingIsRaised : Prop :=
  (∀ (i : Instr) (s : State), ∃ t, exec i s = .next t) ∧ ∀ s : State, ∃ t, step s = .next t

/-- The nets carry nothing from step to step: they are quiet after every step and no step depends on
them (10_state.md rule R23). -/
def Obligations.NoHiddenState : Prop :=
  ∀ (s : State) (n : Nets), step { s with nets := n } = step s ∧
    ∀ t, step s = .next t → t.nets = Nets.quiet

/-- Inputs that are not sampled have no effect: `start` outside IDLE, `out_ready` outside EMIT, both
while `rst` is 1 (10_state.md rule R19), and the entries of PIX outside SHIFT. -/
def Obligations.UnsampledInputsIgnored : Prop :=
  (∀ (s : State) (i j : Inputs) (rest : List Inputs), i.rst = j.rst → i.hostWrites = j.hostWrites →
    (i.rst = false → s.phase = .idle → i.start = j.start) →
    (i.rst = false → s.phase = .emit → i.outReady = j.outReady) →
    step { s with inputs := i :: rest } = step { s with inputs := j :: rest }) ∧
  ∀ (s t u : State) (m : Memory), s.sampled.rst = true ∨ s.phase ≠ .shift →
    step s = .next t → step { s with pix := m } = .next u →
    u = { t with pix := Memory.hostWrites s.pixw m s.sampled.hostWrites }

/-- RESET wins from every state, whatever the other inputs: the five items and the history take their
reset values, no pixel is read and no byte transferred, and the outputs are those after reset
(10_state.md rule R24; 40_bitplane_encoder.md rule R71). -/
def Obligations.ResetFromAnyState : Prop :=
  ∀ s : State, s.sampled.rst = true →
    ∃ r t, exec .reset s.sample = .next r ∧ r.nets = s.nets ∧ step s = .next t ∧ t = r.settle ∧
      t.blockReset ∧
      t.outputs = { busy := false, done := false, pxRe := false, pxAddr := 0, outValid := false,
                    outData := 0x00 } ∧
      t.nets = Nets.quiet ∧ t.pix = Memory.hostWrites s.pixw s.pix s.sampled.hostWrites ∧
      t.pixw = s.pixw ∧ t.inputs = s.inputs.tail

/-- The rule of the flag `done` (10_state.md rule R16): set by the EMIT step that transfers the last
byte, cleared by an accepted START and by RESET, held otherwise, read by no operation. -/
def Obligations.DoneFlagRule : Prop :=
  ∀ s t : State, step s = .next t →
    (t.done =
      if s.sampled.rst = true then false
      else match s.phase with
        | .idle => if s.sampled.start = true then false else s.done
        | .shift => s.done
        | .emit => if s.sampled.outReady = true ∧ posIdx s.pos = 0xFFF then true else s.done) ∧
    t.outputs.done = t.done ∧
    ∀ b, ∃ u, step { s with done := b } = .next u ∧ { u with done := t.done } = t

/-- Who writes what: `phase`, `pos`, the accumulators, `done` and the history change only by the
operations the spec names (10_state.md rules R11, R14, R16, R21), and no operation writes PIX
(40_bitplane_encoder.md rule R81). -/
def Obligations.OnlyNamedOperationsWrite : Prop :=
  ∀ (i : Instr) (s t : State), exec i s = .next t →
    (t.phase ≠ s.phase → i.mnemonic ∈ [.reset, .start, .shift, .emit, .advance, .finish]) ∧
    (t.pos ≠ s.pos → i.mnemonic ∈ [.reset, .start, .shift, .emit, .advance, .finish]) ∧
    ((t.acc0 ≠ s.acc0 ∨ t.acc1 ≠ s.acc1) →
      i.mnemonic ∈ [.reset, .start, .shift, .emit, .pack, .clear]) ∧
    (t.done ≠ s.done → i.mnemonic ∈ [.reset, .start, .emit, .finish]) ∧
    (t.stream ≠ s.stream → i.mnemonic ∈ [.reset, .start] ∧ t.stream = [] ∨
      i.mnemonic ∈ [.emit, .xfer] ∧ ∃ v, t.stream = s.stream ++ [v]) ∧
    s.SameHost t

/-! ## The step operations -/

/-- RESET (40_bitplane_encoder.md rule R71). -/
def Obligations.ResetResult : Prop :=
  ∀ s : State, ∃ t, exec .reset s = .next t ∧ t.blockReset ∧ t.busy = false ∧ t.nets = s.nets ∧
    s.SameHost t

/-- IDLE writes nothing, STALL writes nothing of the block and keeps presenting the byte of the pass
(40_bitplane_encoder.md rules R72, R76). -/
def Obligations.IdleAndStallResult : Prop :=
  ∀ (s : State) (plane : Plane), exec .idle s = .next s ∧
    ∃ t, exec (.stall plane) s = .next t ∧ s.SameBlock t ∧ s.SameHost t ∧ t.stream = s.stream ∧
      t.nets = { s.nets with byte := if plane = 1 then s.acc1 else s.acc0 }

/-- START (40_bitplane_encoder.md rule R73). -/
def Obligations.StartResult : Prop :=
  ∀ s : State, ∃ t, exec .start s = .next t ∧ t.phase = .shift ∧ t.pos = 0 ∧ t.acc0 = 0 ∧
    t.acc1 = 0 ∧ t.done = false ∧ t.stream = [] ∧ t.busy = true ∧ t.nets = s.nets ∧ s.SameHost t

/-- SHIFT (40_bitplane_encoder.md rule R74): the entry at `(8*txi + col, 8*tyi + row)` gives its two
low bits to the two accumulators, `col` counts modulo 8, and after column 7 the phase is EMIT. -/
def Obligations.ShiftResult : Prop :=
  ∀ (tyi txi : TileIndex) (plane : Plane) (row col : Offset3) (s : State),
    ∃ t, exec (.shift tyi txi plane row col) s = .next t ∧
      let p := Memory.read s.pix (128 * (8 * tyi.toNat + row.toNat) + (8 * txi.toNat + col.toNat))
      t.acc0.toNat = (2 * s.acc0.toNat + p % 2) % 256 ∧
      t.acc1.toNat = (2 * s.acc1.toNat + p / 2 % 2) % 256 ∧
      t.pos.toNat = s.pos.toNat / 8 * 8 + (col.toNat + 1) % 8 ∧
      t.phase = (if col.toNat = 7 then .emit else s.phase) ∧
      t.done = s.done ∧ t.stream = s.stream ∧ s.SameHost t ∧
      t.nets.re = true ∧ t.nets.pixel = p ∧
      t.nets.addr.toNat = 128 * (8 * tyi.toNat + row.toNat) + (8 * txi.toNat + col.toNat) ∧
      t.nets.b0.toNat = p % 2 ∧ t.nets.b1.toNat = p / 2 % 2 ∧
      t.nets.byte = s.nets.byte ∧ t.nets.taken = s.nets.taken

/-- EMIT (40_bitplane_encoder.md rule R75): the byte of the pass goes to the sink as byte `idx`, the
accumulators are cleared, and the run advances to byte `idx + 1` or finishes. -/
def Obligations.EmitResult : Prop :=
  ∀ (tyi txi : TileIndex) (plane : Plane) (row : Offset3) (s : State),
    ∃ t, exec (.emit tyi txi plane row) s = .next t ∧
      let n := (tyi.toNat * 16 + txi.toNat) * 16 + plane.toNat * 8 + row.toNat
      let v := if plane.toNat = 1 then s.acc1 else s.acc0
      t.stream = s.stream ++ [v] ∧
      (∀ k, k ≠ s.stream.length → t.stream[k]? = s.stream[k]?) ∧
      t.acc0 = 0 ∧ t.acc1 = 0 ∧
      (n = 4095 → t.phase = .idle ∧ t.pos = 0 ∧ t.done = true) ∧
      (n ≠ 4095 → t.phase = .shift ∧ t.pos.toNat = 8 * (n + 1) ∧ t.done = s.done) ∧
      t.nets = { s.nets with byte := v, taken := some (BitVec.ofNat 12 n, v) } ∧ s.SameHost t

/-! ## The component operations -/

/-- PXADDR and PXREAD (41_pixel_buffer_reader.md rules R90, R91): the address `128*y + x` is driven,
and PXREAD strobes and samples the entry there, PIXW bits, in the same step. -/
def Obligations.PixelReadResult : Prop :=
  ∀ (tyi txi : TileIndex) (row col : Offset3) (s : State),
    let a := 128 * (8 * tyi.toNat + row.toNat) + (8 * txi.toNat + col.toNat)
    (∃ t, exec (.pxaddr tyi txi row col) s = .next t ∧ t.nets.addr.toNat = a ∧
      t.nets = { s.nets with addr := t.nets.addr } ∧ s.SameBlock t ∧ s.SameHost t) ∧
    ∃ t, exec (.pxread tyi txi row col) s = .next t ∧ t.nets.addr.toNat = a ∧ t.nets.re = true ∧
      t.nets.pixel = Memory.read s.pix a ∧
      (Memory.wf s.pixw s.pix = true → t.nets.pixel < 2 ^ s.pixw.bits) ∧
      t.nets = { s.nets with addr := t.nets.addr, re := true, pixel := t.nets.pixel } ∧
      s.SameBlock t ∧ s.SameHost t

/-- BITX (42_bit_extractor.md rule R100): the document's `pixel & 1` and `(pixel >> 1) & 1`. -/
def Obligations.BitxResult : Prop :=
  ∀ s : State, ∃ t, exec .bitx s = .next t ∧
    t.nets.b0.toNat = s.nets.pixel &&& 1 ∧
    t.nets.b1.toNat = (s.nets.pixel >>> 1) &&& 1 ∧
    t.nets = { s.nets with b0 := t.nets.b0, b1 := t.nets.b1 } ∧ s.SameBlock t ∧ s.SameHost t

/-- PACK (44_bitplane_packer.md rule R130): `((A << 1) | b)[7:0]` in both accumulators. -/
def Obligations.PackResult : Prop :=
  ∀ s : State, ∃ t, exec .pack s = .next t ∧
    t.acc0.toNat = ((s.acc0.toNat <<< 1) ||| s.nets.b0.toNat) % 256 ∧
    t.acc1.toNat = ((s.acc1.toNat <<< 1) ||| s.nets.b1.toNat) % 256 ∧
    t.phase = s.phase ∧ t.pos = s.pos ∧ t.done = s.done ∧ t.stream = s.stream ∧ t.nets = s.nets ∧
    s.SameHost t

/-- CLEAR (44_bitplane_packer.md rule R131). -/
def Obligations.ClearResult : Prop :=
  ∀ s : State, ∃ t, exec .clear s = .next t ∧ t.acc0 = 0 ∧ t.acc1 = 0 ∧ t.phase = s.phase ∧
    t.pos = s.pos ∧ t.done = s.done ∧ t.stream = s.stream ∧ t.nets = s.nets ∧ s.SameHost t

/-- SEL and XFER (43_tile_serializer.md rules R110, R111): SEL chooses the byte of the pass, XFER gives
the chosen byte to the sink as byte `idx`. -/
def Obligations.SelAndXferResult : Prop :=
  ∀ (tyi txi : TileIndex) (plane : Plane) (row : Offset3) (s : State),
    (∃ t, exec (.sel plane) s = .next t ∧
      t.nets = { s.nets with byte := if plane.toNat = 1 then s.acc1 else s.acc0 } ∧
      s.SameBlock t ∧ s.SameHost t) ∧
    ∃ t, exec (.xfer tyi txi plane row) s = .next t ∧
      t.stream = s.stream ++ [s.nets.byte] ∧
      (∀ k, k ≠ s.stream.length → t.stream[k]? = s.stream[k]?) ∧
      t.nets = { s.nets with taken := some (BitVec.ofNat 12
        ((tyi.toNat * 16 + txi.toNat) * 16 + plane.toNat * 8 + row.toNat), s.nets.byte) } ∧
      t.phase = s.phase ∧ t.pos = s.pos ∧ t.acc0 = s.acc0 ∧ t.acc1 = s.acc1 ∧ t.done = s.done ∧
      s.SameHost t

/-- ADVANCE does what the document's loop nest does at the end of a row: the four cases of
43_tile_serializer.md rule R113. -/
def Obligations.AdvanceResult : Prop :=
  ∀ (tyi txi : TileIndex) (plane : Plane) (row : Offset3) (s : State),
    ∃ t, exec (.advance tyi txi plane row) s = .next t ∧ t.phase = .shift ∧
      (row ≠ 7 → t.pos = posOf tyi txi plane (row + 1) 0) ∧
      (row = 7 → plane = 0 → t.pos = posOf tyi txi 1 0 0) ∧
      (row = 7 → plane = 1 → txi ≠ 15 → t.pos = posOf tyi (txi + 1) 0 0 0) ∧
      (row = 7 → plane = 1 → txi = 15 → tyi ≠ 15 → t.pos = posOf (tyi + 1) 0 0 0 0) ∧
      t.acc0 = s.acc0 ∧ t.acc1 = s.acc1 ∧ t.done = s.done ∧ t.stream = s.stream ∧
      t.nets = s.nets ∧ s.SameHost t

/-- FINISH (43_tile_serializer.md rule R114). -/
def Obligations.FinishResult : Prop :=
  ∀ s : State, ∃ t, exec .finish s = .next t ∧ t.pos = 0 ∧ t.phase = .idle ∧ t.done = true ∧
    t.busy = false ∧ t.acc0 = s.acc0 ∧ t.acc1 = s.acc1 ∧ t.stream = s.stream ∧ t.nets = s.nets ∧
    s.SameHost t

/-- EMIT and STALL are their components performed in order; SHIFT is its components and then the count
of the pixel (40_bitplane_encoder.md rules R74 to R76). -/
def Obligations.StepOperationsAreTheirComponents : Prop :=
  ∀ (i : Inputs) (s : State), i.rst = false →
    (s.phase = .emit → execAll (components (controlWord i s.phase s.pos)) s =
      exec (operationOf i s.phase s.pos) s) ∧
    (s.phase = .shift → ∃ u, execAll (components (controlWord i s.phase s.pos)) s = .next u ∧
      exec (operationOf i s.phase s.pos) s = .next { u with
        phase := if posCol s.pos = 7 then .emit else .shift
        pos := posIdx s.pos ++ (posCol s.pos + 1) })

/-- The output ports of 10_state.md rule R18, what they show and what goes with them in a step. `px_re` is
1 in phase SHIFT only and `out_valid` in phase EMIT only; inside a step PXADDR and PXREAD drive
`px_addr`, PXREAD the strobe of phase SHIFT, SEL `out_data`; a step without reset reads the pixel
exactly when `px_re` is 1 (41_pixel_buffer_reader.md rule R92); and the stream grows by `out_data`
exactly when `out_valid` and `out_ready` are 1 without reset (43_tile_serializer.md rule R111). -/
def Obligations.ComponentsDrivePorts : Prop :=
  ∀ s : State,
    (s.outputs.busy = true ↔ s.phase ≠ .idle) ∧ s.outputs.done = s.done ∧
    (s.outputs.pxRe = true ↔ s.phase = .shift) ∧
    s.outputs.pxAddr.toNat = 128 * (8 * (posTyi s.pos).toNat + (posRow s.pos).toNat) +
      (8 * (posTxi s.pos).toNat + (posCol s.pos).toNat) ∧
    (s.outputs.outValid = true ↔ s.phase = .emit) ∧
    s.outputs.outData = (if (posPlane s.pos).toNat = 1 then s.acc1 else s.acc0) ∧
    ((∃ i ∈ components s.fetchWord, i.mnemonic = .pxread) ↔
      s.outputs.pxRe = true ∧ s.sampled.rst = false) ∧
    ((∃ i ∈ components s.fetchWord, i.mnemonic = .xfer) ↔
      s.outputs.outValid = true ∧ s.sampled.outReady = true ∧ s.sampled.rst = false) ∧
    (∃ t, step s = .next t ∧
      if s.sampled.rst = true then t.stream = []
      else if s.outputs.outValid = true ∧ s.sampled.outReady = true then
        t.stream = s.stream ++ [s.outputs.outData]
      else if s.outputs.busy = false ∧ s.sampled.start = true then t.stream = []
      else t.stream = s.stream) ∧
    (∃ t, exec (.pxaddr (posTyi s.pos) (posTxi s.pos) (posRow s.pos) (posCol s.pos)) s = .next t ∧
      t.nets.addr = s.outputs.pxAddr) ∧
    (∃ t, exec (.pxread (posTyi s.pos) (posTxi s.pos) (posRow s.pos) (posCol s.pos)) s = .next t ∧
      t.nets.addr = s.outputs.pxAddr ∧ (s.phase = .shift → t.nets.re = s.outputs.pxRe)) ∧
    ∃ t, exec (.sel (posPlane s.pos)) s = .next t ∧ t.nets.byte = s.outputs.outData

/-! ## Invariants -/

/-- The reset state is a launch state, and the invariants of 10_state.md rule R25 hold in every launch
state. -/
def Obligations.InvariantsAtLaunch : Prop :=
  State.reset.launch ∧ ∀ s : State, s.launch → s.Inv

/-- Every step keeps the invariants of 10_state.md rule R25, whatever the inputs. -/
def Obligations.StepKeepsInvariants : Prop :=
  ∀ s t : State, s.Inv → step s = .next t → t.Inv

/-- 10_state.md rule R25: in every reachable state (a) to (e) hold. -/
def Obligations.ReachableStatesKeepInvariants : Prop :=
  ∀ s : State, Reachable s →
    (s.phase = .idle → s.pos = 0 ∧ s.acc0 = 0 ∧ s.acc1 = 0) ∧
    (s.phase = .emit → posCol s.pos = 0) ∧
    (s.phase = .shift → s.acc0.toNat < 2 ^ (posCol s.pos).toNat ∧
      s.acc1.toNat < 2 ^ (posCol s.pos).toNat) ∧
    (s.done = true → s.phase = .idle) ∧
    (s.phase ≠ .idle → s.stream.length = (posIdx s.pos).toNat) ∧
    (s.phase = .idle → s.stream.length = 0 ∨ s.stream.length = 4096) ∧
    (s.done = true ↔ s.phase = .idle ∧ s.stream.length = 4096)

/-- PIX keeps its canonical form, all entries of PIXW bits, and a step changes it only by the host's
writes: an entry that no write of the sample names reads as before, and one that some write names
reads as the PIXW low bits of the last value written to it (20_memory.md rules R30, R33;
41_pixel_buffer_reader.md rule R94). -/
def Obligations.PixIsTheHosts : Prop :=
  ∀ s t : State, Memory.wf s.pixw s.pix = true → step s = .next t →
    t.pixw = s.pixw ∧ Memory.wf t.pixw t.pix = true ∧
    (∀ a, Memory.read t.pix a < 2 ^ s.pixw.bits) ∧
    (s.sampled.hostWrites = [] → t.pix = s.pix) ∧
    (∀ a, (∀ w ∈ s.sampled.hostWrites, w.addr.toNat ≠ a) →
      Memory.read t.pix a = Memory.read s.pix a) ∧
    ∀ (before after : List HostWrite) (w : HostWrite),
      s.sampled.hostWrites = before ++ w :: after → (∀ x ∈ after, x.addr ≠ w.addr) →
        Memory.read t.pix w.addr.toNat = w.value % 2 ^ s.pixw.bits

/-- While the host leaves PIX alone, every step keeps this: the bytes transferred are the first bytes of
`encode(PIX)` and the accumulators hold the turns made of the row being built
(20_memory.md rule R42; 40_bitplane_encoder.md rule R77). No fairness is needed. -/
def Obligations.StepKeepsEncoding : Prop :=
  (∀ s : State, s.launch → s.Encoding) ∧
  ∀ s t : State, s.Encoding → s.sampled.hostWrites = [] → step s = .next t → t.Encoding

/-- The masking law (42_bit_extractor.md rule R101): an entry gives the bits of its two low
bits, two buffers that agree in them give the same stream, and two machines that differ in the upper
bits of entries stay so and show the same outputs: no flag, no count, no signal tells. -/
def Obligations.MaskingLaw : Prop :=
  (∀ p : Nat, bitsOf p = bitsOf (p &&& 3)) ∧
  (∀ b c : Nat → Nat → Nat, (∀ x < 128, ∀ y < 128, b x y &&& 3 = c x y &&& 3) →
    encodeBuffer b 128 128 = encodeBuffer c 128 128) ∧
  ∀ s t u v : State, s.AgreeLow t → Memory.wf s.pixw s.pix = true →
    Memory.wf t.pixw t.pix = true → step s = .next u → step t = .next v →
      u.AgreeLow v ∧ u.outputs = v.outputs

/-! ## Runs -/

/-- 40_bitplane_encoder.md rule R77: from an accepted START, without reset and with PIX constant up to
the end, and with a fair sink in either form of the premise, the invocation ends after an EMIT with
`stream = encode(PIX)`, after exactly 32768 SHIFT and 4096 EMIT steps and the STALL steps the sink
caused, and no other; on the way the history is the first bytes of `encode(PIX)`, one for each EMIT
performed. -/
def Obligations.InvocationEncodesBuffer : Prop :=
  ∀ (s : State) (sched : Nat → Inputs), s.phase = .idle → (sched 0).start = true →
    undisturbed s sched → sinkFair sched ∨ sinkTakes s sched →
    ∃ (n : Nat) (t : State), Host.Core.run core n (s.scheduled sched n) = .next t ∧ t.completed ∧
      t.stream.map BitVec.toNat = encodeBuffer (bufferOf (s.pixAtStart sched)) 128 128 ∧
      (∀ a, Memory.read t.pix a = Memory.read (s.pixAtStart sched) a) ∧
      (let ops := (operations n (s.scheduled sched n)).map Instr.mnemonic
       ops.length = n ∧ ops.head? = some .start ∧ ops.getLast? = some .emit ∧
        ops.count .start = 1 ∧ ops.count .shift = 32768 ∧ ops.count .emit = 4096 ∧
        n = 1 + 32768 + 4096 + ops.count .stall) ∧
      ∀ m, 1 ≤ m → m ≤ n →
        ∃ u : State, Host.Core.run core m (s.scheduled sched n) = .next u ∧
          (m < n → u.busy = true) ∧
          u.stream.map BitVec.toNat = (encodeBuffer (bufferOf (s.pixAtStart sched)) 128 128).take
            (((operations m (s.scheduled sched n)).map Instr.mnemonic).count .emit)

/-- The order of accesses in one invocation: the pixel reads count `pos` from 0 to 32767 and the
transfers count `idx` from 0 to 4095 (20_memory.md rule R40; 43_tile_serializer.md rule R118), under
the premises of InvocationEncodesBuffer. -/
def Obligations.InvocationAccessOrder : Prop :=
  ∀ (s : State) (sched : Nat → Inputs), s.phase = .idle → (sched 0).start = true →
    undisturbed s sched → sinkFair sched ∨ sinkTakes s sched →
    ∃ (n : Nat) (t : State), Host.Core.run core n (s.scheduled sched n) = .next t ∧ t.completed ∧
      let ops := operations n (s.scheduled sched n)
      ops.filter (·.mnemonic = .shift) = (List.range 32768).map (fun k =>
        let p : Pos := BitVec.ofNat 15 k
        .shift (posTyi p) (posTxi p) (posPlane p) (posRow p) (posCol p)) ∧
      ops.filter (·.mnemonic = .emit) = (List.range 4096).map (fun k =>
        let p : Pos := BitVec.ofNat 15 (8 * k)
        .emit (posTyi p) (posTxi p) (posPlane p) (posRow p))

/-- With a sink that is always ready the invocation takes 36865 steps counting the START step
(70_reset_and_hazards.md rule R171). -/
def Obligations.ReadySinkStepCount : Prop :=
  ∀ (s : State) (sched : Nat → Inputs), s.phase = .idle → (sched 0).start = true →
    undisturbed s sched → (∀ n < 36865, (sched n).outReady = true) →
    ∃ t, Host.Core.run core 36865 (s.scheduled sched 36865) = .next t ∧ t.completed ∧
      t.stream.map BitVec.toNat = encodeBuffer (bufferOf (s.pixAtStart sched)) 128 128

/-- A sink that is not ready holds the block: for any number of steps `out_valid` is 1 and `out_data` the
accumulator of the pass, nothing of the block changes and the output ports are as before
(40_bitplane_encoder.md rule R76; 43_tile_serializer.md rule R112; 60_exceptions.md rule R150). -/
def Obligations.UnreadySinkHoldsBlock : Prop :=
  ∀ (n : Nat) (s : State) (sched : Nat → Inputs), s.phase = .emit →
    (∀ k < n, (sched k).rst = false ∧ (sched k).outReady = false) →
    ∃ t, Host.Core.run core n (s.scheduled sched n) = .next t ∧ s.SameBlock t ∧
      t.outputs = s.outputs ∧ t.outputs.outValid = true ∧
      t.outputs.outData = if (posPlane s.pos).toNat = 1 then s.acc1 else s.acc0

/-- Back-to-back invocations: after the step that transfers the last byte, `done` is visible and a
`start` held at 1 is taken by the very next step, which clears it (40_bitplane_encoder.md rule R84). -/
def Obligations.BackToBackInvocations : Prop :=
  ∀ (s : State) (i j : Inputs) (rest : List Inputs), s.phase = .emit → posIdx s.pos = 0xFFF →
    s.inputs = i :: j :: rest → i.rst = false → i.outReady = true → j.rst = false →
    j.start = true →
    ∃ t u, step s = .next t ∧ t.outputs.busy = false ∧ t.outputs.done = true ∧
      t.completed ∧ step t = .next u ∧ u.phase = .shift ∧ u.pos = 0 ∧ u.outputs.busy = true ∧
      u.outputs.done = false ∧ u.stream = []

/-- A host write is seen by each later read: in a SHIFT step the accumulators take the bits of the value
written before the step, if it was written to the address read, else of the old entry
(20_memory.md rule R45). -/
def Obligations.HostWriteSeenByLaterRead : Prop :=
  ∀ (s : State) (w : HostWrite), s.phase = .shift → Memory.wf s.pixw s.pix = true →
    s.sampled.rst = false → s.sampled.hostWrites = [w] →
    ∃ t, step s = .next t ∧
      let p := if s.outputs.pxAddr = w.addr then w.value else s.memRead s.outputs.pxAddr
      t.acc0.toNat = (2 * s.acc0.toNat + p % 2) % 256 ∧
      t.acc1.toNat = (2 * s.acc1.toNat + p / 2 % 2) % 256

/-! ## Formats and the reference algorithm -/

/-- 30_encoding.md rule R55: the concatenations of fields of `pos` as numbers, and `px_addr` carries
every bit of `pos` but `plane`. -/
def Obligations.OperandAssembly : Prop :=
  (∀ p : Pos,
    let x := 8 * (posTxi p).toNat + (posCol p).toNat
    let y := 8 * (posTyi p).toNat + (posRow p).toNat
    (xOf (posTxi p) (posCol p)).toNat = x ∧ (yOf (posTyi p) (posRow p)).toNat = y ∧
    (pxAddrOf (posTyi p) (posTxi p) (posRow p) (posCol p)).toNat = 128 * y + x ∧
    idxOf (posTyi p) (posTxi p) (posPlane p) (posRow p) = p.extractLsb' 3 12 ∧
    x < 128 ∧ y < 128) ∧
  ∀ p q : Pos, (pxAddrOf (posTyi p) (posTxi p) (posRow p) (posCol p) =
    pxAddrOf (posTyi q) (posTxi q) (posRow q) (posCol q)) ↔ p ||| 64 = q ||| 64

/-- Each of the 16384 entries is read at exactly two values of `pos`, 64 apart
(20_memory.md rule R40). -/
def Obligations.EachEntryReadTwice : Prop :=
  ∀ a : PixAddr, ∃ p : Pos, p.toNat + 64 < 2 ^ 15 ∧ ∀ q : Pos,
    pxAddrOf (posTyi q) (posTxi q) (posRow q) (posCol q) = a ↔ q = p ∨ q = p + 64

/-- 43_tile_serializer.md rule R119: the generic ADVANCE and FINISH for `W = H = 128` are those of the
block. -/
def Obligations.GenericAdvanceAt128 : Prop :=
  ∀ (tyi txi : TileIndex) (plane : Plane) (row : Offset3) (s : State),
    match genericAdvance 16 16 { tyi := tyi.toNat, txi := txi.toNat, plane := plane.toNat,
                                 row := row.toNat } with
    | some k => idxOf tyi txi plane row ≠ 0xFFF ∧
        ∃ t, exec (.emit tyi txi plane row) s = .next t ∧ t.phase = .shift ∧
          (posTyi t.pos).toNat = k.tyi ∧ (posTxi t.pos).toNat = k.txi ∧
          (posPlane t.pos).toNat = k.plane ∧ (posRow t.pos).toNat = k.row ∧ posCol t.pos = 0
    | none => idxOf tyi txi plane row = 0xFFF ∧
        ∃ t, exec (.emit tyi txi plane row) s = .next t ∧ t.phase = .idle ∧ t.pos = 0 ∧
          t.done = true

/-- 44_bitplane_packer.md rule R132: eight PACK operations from a cleared accumulator, and `k < 8` of
them. -/
def Obligations.ByteLaw : Prop :=
  (∀ b0 b1 b2 b3 b4 b5 b6 b7 : BitVec 1,
    ([b0, b1, b2, b3, b4, b5, b6, b7].foldl packBit 0).toNat =
      (b0.toNat <<< 7 ||| b1.toNat <<< 6 ||| b2.toNat <<< 5 ||| b3.toNat <<< 4 |||
        b4.toNat <<< 3 ||| b5.toNat <<< 2 ||| b6.toNat <<< 1 ||| b7.toNat)) ∧
  ∀ bs : List (BitVec 1), bs.length < 8 → ∀ j : Nat,
    (bs.foldl packBit 0).getLsbD j =
      if j < bs.length then (bs.getD (bs.length - 1 - j) 0).getLsbD 0 else false

/-- Eight PACK operations overwrite an accumulator whatever it held (44_bitplane_packer.md rule
R134). -/
def Obligations.EightPacksOverwrite : Prop :=
  ∀ (A B : Byte) (bs : List (BitVec 1)), 8 ≤ bs.length →
    bs.foldl packBit A = bs.foldl packBit B

/-- 00_scope.md rule R6: PIXW is at least 2 and by default 8, and no result depends on it beyond the two
low bits of an entry. Entries of any two widths that keep the same low bits give the same plane bits,
and two machines of any two widths whose entries agree in the low bits perform the same operations and
show the same outputs after every number of steps, whatever the inputs. -/
def Obligations.EntryWidthIsIrrelevant : Prop :=
  (∀ w : Pixw, 2 ≤ w.bits) ∧ State.reset.pixw.bits = 8 ∧
  (∀ (v w : Pixw) (a b : Nat), a % 4 = b % 4 → bitsOf (v.entry a) = bitsOf (w.entry b)) ∧
  ∀ (n : Nat) (s t : State), s.AgreeLow t → Memory.wf s.pixw s.pix = true →
    Memory.wf t.pixw t.pix = true →
    ∃ u v, Host.Core.run core n s = .next u ∧ Host.Core.run core n t = .next v ∧
      operations n s = operations n t ∧ u.AgreeLow v ∧ u.outputs = v.outputs

/-- The length of the stream for dimensions that are multiples of 8 (40_bitplane_encoder.md rule R79). -/
def Obligations.EncodeLength : Prop :=
  ∀ (buffer : Nat → Nat → Nat) (width height : Nat), width % 8 = 0 → height % 8 = 0 →
    (encodeBuffer buffer width height).length = (width / 8) * (height / 8) * 16

/-- 20_memory.md rule R35: the byte at offset `n(tyi, txi, p, r)` has the value `S[n]`, and every offset
is `n` of exactly one `(tyi, txi, p, r)`; in the generic form for `W = 8*wt`, `H = 8*ht`. -/
def Obligations.StreamContent : Prop :=
  ∀ (buffer : Nat → Nat → Nat) (wt ht : Nat), 0 < wt → 0 < ht →
    (∀ tyi < ht, ∀ txi < wt, ∀ p < 2, ∀ r < 8,
      (encodeBuffer buffer (8 * wt) (8 * ht))[streamOffset wt tyi txi p r]? =
        some (streamValue buffer tyi txi p r)) ∧
    ∀ n < ht * wt * 16, ∃! k : Nat × Nat × Nat × Nat,
      k.1 < ht ∧ k.2.1 < wt ∧ k.2.2.1 < 2 ∧ k.2.2.2 < 8 ∧
        streamOffset wt k.1 k.2.1 k.2.2.1 k.2.2.2 = n

/-- 30_encoding.md rule R63: the inverse mapping recovers the two low bits of every entry. -/
def Obligations.RoundTripOfStream : Prop :=
  ∀ (buffer : Nat → Nat → Nat), ∀ x < 128, ∀ y < 128,
    decodePixel (encodeBuffer buffer 128 128) x y = buffer x y &&& 3
end

