-- ==== Sys2Proof/Laws/Operands.lean ====
section
/-! SUPPORT. The fields of `pos` and what is assembled from them, as numbers and as each other's
inverses (10_state.md rules R12, R13; 30_encoding.md rule R55). -/

namespace Sys2Proof.Machine

/-- Concatenation as a number. -/
theorem toNat_append_eq {m n : Nat} (a : BitVec m) (b : BitVec n) :
    (a ++ b).toNat = a.toNat * 2 ^ n + b.toNat := by
  rw [BitVec.toNat_append, ← Nat.shiftLeft_add_eq_or_of_lt b.isLt, Nat.shiftLeft_eq]

theorem posTyi_toNat (p : Pos) : (posTyi p).toNat = p.toNat / 2048 := by
  have := p.isLt
  simp only [posTyi, BitVec.extractLsb'_toNat, Nat.shiftRight_eq_div_pow]; omega

theorem posTxi_toNat (p : Pos) : (posTxi p).toNat = p.toNat / 128 % 16 := by
  simp [posTxi, BitVec.extractLsb'_toNat, Nat.shiftRight_eq_div_pow]

theorem posPlane_toNat (p : Pos) : (posPlane p).toNat = p.toNat / 64 % 2 := by
  simp [posPlane, BitVec.extractLsb'_toNat, Nat.shiftRight_eq_div_pow]

theorem posRow_toNat (p : Pos) : (posRow p).toNat = p.toNat / 8 % 8 := by
  simp [posRow, BitVec.extractLsb'_toNat, Nat.shiftRight_eq_div_pow]

theorem posCol_toNat (p : Pos) : (posCol p).toNat = p.toNat % 8 := by
  simp [posCol, BitVec.extractLsb'_toNat]

theorem posIdx_toNat (p : Pos) : (posIdx p).toNat = p.toNat / 8 := by
  have := p.isLt
  simp only [posIdx, BitVec.extractLsb'_toNat, Nat.shiftRight_eq_div_pow]; omega

theorem pxAddrOf_toNat (tyi txi : TileIndex) (row col : Offset3) :
    (pxAddrOf tyi txi row col).toNat =
      (8 * tyi.toNat + row.toNat) * 128 + (8 * txi.toNat + col.toNat) := by
  simp only [pxAddrOf, yOf, xOf, toNat_append_eq]; omega

theorem idxOf_toNat (tyi txi : TileIndex) (plane : Plane) (row : Offset3) :
    (idxOf tyi txi plane row).toNat =
      (tyi.toNat * 16 + txi.toNat) * 16 + plane.toNat * 8 + row.toNat := by
  simp only [idxOf, toNat_append_eq]; omega

theorem posOf_toNat (tyi txi : TileIndex) (plane : Plane) (row col : Offset3) :
    (posOf tyi txi plane row col).toNat =
      (((tyi.toNat * 16 + txi.toNat) * 2 + plane.toNat) * 8 + row.toNat) * 8 + col.toNat := by
  simp only [posOf, toNat_append_eq]; omega

theorem posOfIdx_toNat (n : Idx) : (posOfIdx n).toNat = 8 * n.toNat := by
  simp only [posOfIdx, toNat_append_eq]; simp; omega

theorem posSetCol_toNat (p : Pos) (c : Offset3) :
    (posSetCol p c).toNat = p.toNat / 8 * 8 + c.toNat := by
  simp only [posSetCol, toNat_append_eq, posIdx_toNat]; omega

@[simp] theorem posIdx_posOfIdx (n : Idx) : posIdx (posOfIdx n) = n := by
  apply BitVec.eq_of_toNat_eq; rw [posIdx_toNat, posOfIdx_toNat]; omega

@[simp] theorem posCol_posOfIdx (n : Idx) : posCol (posOfIdx n) = 0 := by
  apply BitVec.eq_of_toNat_eq; rw [posCol_toNat, posOfIdx_toNat]; simp

@[simp] theorem posIdx_posSetCol (p : Pos) (c : Offset3) : posIdx (posSetCol p c) = posIdx p := by
  apply BitVec.eq_of_toNat_eq; rw [posIdx_toNat, posSetCol_toNat, posIdx_toNat]
  have := c.isLt; omega

@[simp] theorem posCol_posSetCol (p : Pos) (c : Offset3) : posCol (posSetCol p c) = c := by
  apply BitVec.eq_of_toNat_eq; rw [posCol_toNat, posSetCol_toNat]; have := c.isLt; omega

/-- The five fields make up `pos`. -/
theorem posOf_fields (p : Pos) :
    posOf (posTyi p) (posTxi p) (posPlane p) (posRow p) (posCol p) = p := by
  apply BitVec.eq_of_toNat_eq
  rw [posOf_toNat, posTyi_toNat, posTxi_toNat, posPlane_toNat, posRow_toNat, posCol_toNat]; omega

/-- The four upper fields make up `idx`. -/
theorem idxOf_fields (p : Pos) : idxOf (posTyi p) (posTxi p) (posPlane p) (posRow p) = posIdx p := by
  apply BitVec.eq_of_toNat_eq
  rw [idxOf_toNat, posTyi_toNat, posTxi_toNat, posPlane_toNat, posRow_toNat, posIdx_toNat]
  have := p.isLt; omega

theorem plane_cases (p : Plane) : p = 0 ∨ p = 1 := by
  have := p.isLt
  rcases (by omega : p.toNat = 0 ∨ p.toNat = 1) with h | h
  · exact .inl (BitVec.eq_of_toNat_eq h)
  · exact .inr (BitVec.eq_of_toNat_eq h)

/-- PACK as a number: the top bit is dropped (44_bitplane_packer.md rule R130). -/
theorem packBit_toNat (A : Byte) (b : BitVec 1) :
    (packBit A b).toNat = (2 * A.toNat + b.toNat) % 256 := by
  simp only [packBit, toNat_append_eq, BitVec.extractLsb'_toNat, Nat.shiftRight_zero]
  have := b.isLt; omega

/-- One bit of an entry as a number. -/
theorem entryBit_toNat (p : Nat) (k : Nat) : (entryBit p k).toNat = p / 2 ^ k % 2 := by
  rw [entryBit, BitVec.toNat_ofBool, Nat.testBit_eq_decide_div_mod_eq]
  rcases Nat.mod_two_eq_zero_or_one (p / 2 ^ k) with h | h <;> simp [h]

/-- PACK bit by bit: the new bit at the bottom, the others moved up (44_bitplane_packer.md rule R130). -/
theorem packBit_getLsbD (A : Byte) (b : BitVec 1) (j : Nat) :
    (packBit A b).getLsbD j =
      if j = 0 then b.getLsbD 0 else decide (j < 8) && A.getLsbD (j - 1) := by
  unfold packBit
  rw [BitVec.getLsbD_append]
  rcases j with _ | j
  · simp
  · by_cases h : j + 1 < 8
    · simp [h]; intro _; omega
    · have : ¬ j < 7 := by omega
      simp [h, this]

end Sys2Proof.Machine
end

