-- ==== Sys2Proof/Laws/Decode.lean ====
section
/-! SUPPORT. The control word as its five selector bits and `pos` (30_encoding.md rule R58): its
fields, and the rows of kind step, whose patterns require selector bits only. -/

namespace Sys2Proof

open Machine

/-- A control word is its five selector bits and `pos`. -/
theorem word_split (cw : ControlWord) : cw = cw.extractLsb' 15 5 ++ cwPos cw := by
  apply BitVec.eq_of_toNat_eq
  rw [toNat_append_eq]
  simp only [cwPos, BitVec.extractLsb'_toNat, Nat.shiftRight_eq_div_pow]
  have := cw.isLt
  omega

theorem cwTyi_eq (cw : ControlWord) : cwTyi cw = posTyi (cwPos cw) := by
  apply BitVec.eq_of_toNat_eq
  simp only [cwTyi, cwPos, posTyi, BitVec.extractLsb'_toNat, Nat.shiftRight_eq_div_pow]; omega

theorem cwTxi_eq (cw : ControlWord) : cwTxi cw = posTxi (cwPos cw) := by
  apply BitVec.eq_of_toNat_eq
  simp only [cwTxi, cwPos, posTxi, BitVec.extractLsb'_toNat, Nat.shiftRight_eq_div_pow]; omega

theorem cwPlane_eq (cw : ControlWord) : cwPlane cw = posPlane (cwPos cw) := by
  apply BitVec.eq_of_toNat_eq
  simp only [cwPlane, cwPos, posPlane, BitVec.extractLsb'_toNat, Nat.shiftRight_eq_div_pow]; omega

theorem cwRow_eq (cw : ControlWord) : cwRow cw = posRow (cwPos cw) := by
  apply BitVec.eq_of_toNat_eq
  simp only [cwRow, cwPos, posRow, BitVec.extractLsb'_toNat, Nat.shiftRight_eq_div_pow]; omega

theorem cwCol_eq (cw : ControlWord) : cwCol cw = posCol (cwPos cw) := by
  apply BitVec.eq_of_toNat_eq
  simp only [cwCol, cwPos, posCol, BitVec.extractLsb'_toNat, Nat.shiftRight_eq_div_pow]; omega

@[simp] theorem cwPos_append (hi : BitVec 5) (pos : Pos) : cwPos (hi ++ pos) = pos := by
  apply BitVec.eq_of_toNat_eq
  simp only [cwPos, BitVec.extractLsb'_toNat, toNat_append_eq, Nat.shiftRight_eq_div_pow]
  have := pos.isLt; omega

@[simp] theorem cwPhase_append (hi : BitVec 5) (pos : Pos) :
    cwPhase (hi ++ pos) = hi.extractLsb' 0 2 := by
  apply BitVec.eq_of_toNat_eq
  simp only [cwPhase, BitVec.extractLsb'_toNat, toNat_append_eq, Nat.shiftRight_eq_div_pow]
  have := pos.isLt; omega

/-- The selector bits a row of kind step requires, as a mask. -/
def stepMaskHi : Mnemonic → BitVec 5
  | .reset => 0b10000
  | .idle | .start => 0b11011
  | .shift => 0b10011
  | .emit | .stall => 0b10111
  | _ => 0

/-- The values of those selector bits. -/
def stepBitsHi : Mnemonic → BitVec 5
  | .reset => 0b10000
  | .idle => 0b00000
  | .start => 0b01000
  | .shift => 0b00001
  | .emit => 0b00110
  | .stall => 0b00010
  | _ => 0

/-- A row of kind step looks at the selector bits only. -/
theorem step_matchesWord {m : Mnemonic} (h : m.kind = .step) (hi : BitVec 5) (pos : Pos) :
    m.matchesWord (hi ++ pos) = (hi &&& stepMaskHi m == stepBitsHi m) := by
  have hmask : m.mask = stepMaskHi m ++ (0 : BitVec 15) := by cases m <;> first | rfl | cases h
  have hbits : m.bits = stepBitsHi m ++ (0 : BitVec 15) := by cases m <;> first | rfl | cases h
  have key : ∀ u v : BitVec 5, (u ++ (0 : BitVec 15) = v ++ (0 : BitVec 15)) ↔ u = v := by
    refine fun u v => ⟨fun e => ?_, fun e => e ▸ rfl⟩
    have e' := congrArg BitVec.toNat e
    rw [toNat_append_eq, toNat_append_eq] at e'
    exact BitVec.eq_of_toNat_eq (by omega)
  unfold Mnemonic.matchesWord
  rw [hmask, hbits, BitVec.and_append]
  simp only [BitVec.and_zero, Bool.beq_eq_decide_eq, BitVec.ofNat_eq_ofNat]
  exact decide_eq_decide.mpr (key _ _)

/-- When a control word selects a row of kind step. -/
theorem step_selects {m : Mnemonic} (h : m.kind = .step) (hi : BitVec 5) (pos : Pos) :
    m.selects (hi ++ pos) = (hi.extractLsb' 0 2 != 3 && (hi &&& stepMaskHi m == stepBitsHi m)) := by
  unfold Mnemonic.selects
  rw [step_matchesWord h, cwPhase_append]
  cases m <;> first | exact absurd h (by decide) | simp

/-- The row of kind step that the selector bits choose. -/
def stepRowHi (hi : BitVec 5) : Option Mnemonic :=
  stepRows.find? fun m => hi.extractLsb' 0 2 != 3 && (hi &&& stepMaskHi m == stepBitsHi m)

/-- The decoder looks at the selector bits for the row and at `pos` for the operands. -/
theorem decode_append (hi : BitVec 5) (pos : Pos) :
    decode (hi ++ pos) =
      if hi.extractLsb' 0 2 = 3 then .error .noSuchPhase
      else match stepRowHi hi with
        | some m => .ok (operandsOf m (hi ++ pos))
        | none => .error .noSuchRow := by
  have h : stepRows.find? (·.selects (hi ++ pos)) = stepRowHi hi := by
    have step : ∀ m ∈ stepRows, m.kind = .step := by decide
    unfold stepRowHi
    refine List.find?_congr fun m hm => ?_
    exact step_selects (step m hm) hi pos
  unfold decode
  rw [cwPhase_append, h] <;> rfl

end Sys2Proof
end

