-- ==== Sys2Proof/Laws/Memory.lean ====
section
/-! SUPPORT. PIX: a read after a write, and the canonical form, which every memory operation keeps. -/

namespace Sys2Proof

/-- An entry has PIXW bits. -/
theorem Pixw.entry_lt (w : Pixw) (v : Nat) : w.entry v < 2 ^ w.bits :=
  Nat.mod_lt v (Nat.two_pow_pos w.bits)

/-- An entry keeps the two low bits, whatever PIXW is (00_scope.md rule R6). -/
theorem Pixw.entry_mod_four (w : Pixw) (v : Nat) : w.entry v % 4 = v % 4 :=
  Nat.mod_mod_of_dvd v (Nat.pow_dvd_pow 2 w.two_le_bits)

end Sys2Proof

namespace Sys2Proof.Machine

theorem Memory.wfAbove_cons (w : Pixw) (lo a : Nat) (v : Nat) (rest : Memory) :
    Memory.wfAbove w lo ((a, v) :: rest) = true ↔
      lo ≤ a ∧ a < 2 ^ 14 ∧ v < 2 ^ w.bits ∧ v ≠ Config.unwrittenEntry ∧
        Memory.wfAbove w (a + 1) rest = true := by
  simp [Memory.wfAbove, and_assoc]

theorem Memory.wfAbove_weaken {w : Pixw} {lo lo' : Nat} (h : lo' ≤ lo) :
    ∀ m : Memory, Memory.wfAbove w lo m = true → Memory.wfAbove w lo' m = true
  | [], _ => rfl
  | (a, v) :: rest, hm => by
    rw [Memory.wfAbove_cons] at hm ⊢
    exact ⟨h.trans hm.1, hm.2⟩

/-- Below the first address of a canonical memory nothing is listed. -/
theorem Memory.read_below {w : Pixw} {lo a : Nat} :
    ∀ m : Memory, Memory.wfAbove w lo m = true → a < lo → Memory.read m a = Config.unwrittenEntry
  | [], _, _ => rfl
  | (b, v) :: rest, hm, ha => by
    rw [Memory.wfAbove_cons] at hm
    rw [Memory.read, if_neg (by omega)]
    exact Memory.read_below rest hm.2.2.2.2 (by omega)

theorem Memory.write_wfAbove {w : Pixw} {lo a : Nat} {v : Nat} (hlo : lo ≤ a) (ha : a < 2 ^ 14)
    (hv : v < 2 ^ w.bits) :
    ∀ m : Memory, Memory.wfAbove w lo m = true → Memory.wfAbove w lo (Memory.write m a v) = true
  | [], _ => by
    unfold Memory.write
    split
    · rfl
    · rw [Memory.wfAbove_cons]; exact ⟨hlo, ha, hv, ‹_›, rfl⟩
  | (b, e) :: rest, hm => by
    have hm' := hm
    rw [Memory.wfAbove_cons] at hm'
    obtain ⟨hb, hb14, hbits, he, hrest⟩ := hm'
    unfold Memory.write
    split
    · split
      · exact hm
      · rw [Memory.wfAbove_cons, Memory.wfAbove_cons]
        exact ⟨hlo, ha, hv, ‹_›, by omega, hb14, hbits, he, hrest⟩
    · split
      · subst a
        split
        · exact Memory.wfAbove_weaken (by omega) rest hrest
        · rw [Memory.wfAbove_cons]; exact ⟨hb, hb14, hv, ‹_›, hrest⟩
      · rw [Memory.wfAbove_cons]
        exact ⟨hb, hb14, hbits, he, Memory.write_wfAbove (by omega) ha hv rest hrest⟩

/-- A write keeps the canonical form. -/
theorem Memory.write_wf {w : Pixw} {m : Memory} {a : Nat} {v : Nat} (h : Memory.wf w m = true)
    (ha : a < 2 ^ 14) (hv : v < 2 ^ w.bits) : Memory.wf w (Memory.write m a v) = true :=
  Memory.write_wfAbove (Nat.zero_le a) ha hv m h

theorem Memory.read_write_above {w : Pixw} {lo a : Nat} (v : Nat) :
    ∀ m : Memory, Memory.wfAbove w lo m = true → ∀ b,
      Memory.read (Memory.write m a v) b = if b = a then v else Memory.read m b
  | [], _, b => by
    unfold Memory.write
    split
    · subst v; simp [Memory.read]
    · simp [Memory.read]
  | (c, e) :: rest, hm, b => by
    rw [Memory.wfAbove_cons] at hm
    obtain ⟨-, -, -, -, hrest⟩ := hm
    have below : ∀ x < c + 1, Memory.read rest x = Config.unwrittenEntry :=
      fun x hx => Memory.read_below rest hrest hx
    have ih := Memory.read_write_above (a := a) v rest hrest b
    by_cases h1 : a < c
    · by_cases hv : v = Config.unwrittenEntry
      · by_cases hb : b = a
        · subst hb
          simp [Memory.write, h1, hv, Memory.read, h1.ne, below b (by omega)]
        · simp [Memory.write, h1, hv, Memory.read, hb]
      · simp [Memory.write, h1, hv, Memory.read]
    · by_cases h2 : a = c
      · subst h2
        by_cases hv : v = Config.unwrittenEntry
        · by_cases hb : b = a
          · subst hb; simp [Memory.write, hv, below b (by omega)]
          · simp [Memory.write, hv, Memory.read, hb]
        · by_cases hb : b = a <;> simp [Memory.write, hv, Memory.read, hb]
      · by_cases hb : b = c
        · subst hb; simp [Memory.write, h1, h2, Memory.read, Ne.symm h2]
        · simp [Memory.write, h1, h2, Memory.read, hb, ih]

/-- A read after a write: the value written at that address, as before at every other. -/
theorem Memory.read_write {w : Pixw} {m : Memory} (h : Memory.wf w m = true)
    (a v b : Nat) :
    Memory.read (Memory.write m a v) b = if b = a then v else Memory.read m b :=
  Memory.read_write_above v m h b

/-- All entries of a canonical PIX have PIXW bits, the unlisted ones too. -/
theorem Memory.read_lt {w : Pixw} {lo : Nat} :
    ∀ m : Memory, Memory.wfAbove w lo m = true → ∀ a, Memory.read m a < 2 ^ w.bits
  | [], _, _ => Nat.two_pow_pos w.bits
  | (b, v) :: rest, hm, a => by
    rw [Memory.wfAbove_cons] at hm
    rw [Memory.read]
    split
    · exact hm.2.2.1
    · exact Memory.read_lt rest hm.2.2.2.2 a

/-- One write of the host keeps the canonical form. -/
theorem Memory.hostWrite_wf {w : Pixw} {m : Memory} (h : Memory.wf w m = true) (x : HostWrite) :
    Memory.wf w (Memory.hostWrite w m x) = true :=
  Memory.write_wf h x.addr.isLt (w.entry_lt x.value)

/-- The host's writes keep the canonical form. -/
theorem Memory.hostWrites_wf {w : Pixw} (hs : List HostWrite) :
    ∀ m : Memory, Memory.wf w m = true → Memory.wf w (Memory.hostWrites w m hs) = true := by
  induction hs with
  | nil => exact fun _ h => h
  | cons x hs ih => exact fun m h => ih _ (Memory.hostWrite_wf h x)

@[simp] theorem Memory.hostWrites_nil (w : Pixw) (m : Memory) : Memory.hostWrites w m [] = m := rfl

@[simp] theorem Memory.hostWrites_cons (w : Pixw) (m : Memory) (x : HostWrite)
    (hs : List HostWrite) :
    Memory.hostWrites w m (x :: hs) = Memory.hostWrites w (Memory.hostWrite w m x) hs := rfl

/-- What an address reads as after one write of the host. -/
theorem Memory.read_hostWrite {w : Pixw} {m : Memory} (h : Memory.wf w m = true) (x : HostWrite)
    (a : Nat) : Memory.read (Memory.hostWrite w m x) a =
      if a = x.addr.toNat then w.entry x.value else Memory.read m a :=
  Memory.read_write h _ _ a

/-- The reset state's PIX is canonical. -/
theorem State.reset_pix_wf : Memory.wf State.reset.pixw State.reset.pix = true := rfl

end Sys2Proof.Machine
end

