-- ==== Sys2Proof/Laws/PerInstr.lean ====
section
/-! SUPPORT. The family of statements made per instruction: the word of a well-formed operation has the
required bits of its own row (opcode_table.json). -/

namespace Sys2Proof.Laws.EncodeMatches

open Sys2Proof Machine

/-- The statement for one operation. -/
def Statement (i : Instr) : Prop :=
  i.wellFormed = true → i.mnemonic.matchesWord (encode i) = true

/-- A row’s pattern as an equation. -/
theorem matchesWord_iff (m : Mnemonic) (cw : ControlWord) :
    m.matchesWord cw = true ↔ cw &&& m.mask = m.bits := by
  simp [Mnemonic.matchesWord]

theorem reset : Statement .reset := fun _ => by decide
theorem idle : Statement .idle := fun _ => by decide
theorem start : Statement .start := fun _ => by decide
theorem bitx : Statement .bitx := fun _ => by decide
theorem pack : Statement .pack := fun _ => by decide
theorem clear : Statement .clear := fun _ => by decide
theorem finish : Statement .finish := fun _ => by decide

theorem stall (p : Plane) : Statement (.stall p) := fun _ => by
  rcases plane_cases p with rfl | rfl <;> decide

theorem sel (p : Plane) : Statement (.sel p) := fun _ => by
  rcases plane_cases p with rfl | rfl <;> decide

/-- The selector bits of a word decide a pattern that requires selector bits only. -/
theorem matches_of_hi {hi mask bits : BitVec 5} {m : Mnemonic} (lo : BitVec 15)
    (hmask : m.mask = mask ++ (0 : BitVec 15)) (hbits : m.bits = bits ++ (0 : BitVec 15))
    (h : hi &&& mask = bits) : m.matchesWord (hi ++ lo) = true := by
  rw [matchesWord_iff, hmask, hbits, BitVec.and_append, h]
  simp

theorem shift (y x : TileIndex) (p : Plane) (r c : Offset3) : Statement (.shift y x p r c) :=
  fun _ => by
  have e : encode (.shift y x p r c) = (0b00001 : BitVec 5) ++ (y ++ x ++ p ++ r ++ c) := by
    apply BitVec.eq_of_toNat_eq
    simp only [encode, toNat_append_eq]; omega
  rw [e]
  exact matches_of_hi (mask := 0b10011) (bits := 0b00001) _ rfl rfl (by decide)

theorem pxaddr (y x : TileIndex) (r c : Offset3) : Statement (.pxaddr y x r c) := fun _ => by
  have e : encode (.pxaddr y x r c) =
      (0b00001 : BitVec 5) ++ (y ++ x ++ (0 : BitVec 1) ++ r ++ c) := by
    apply BitVec.eq_of_toNat_eq
    simp only [encode, toNat_append_eq]; omega
  rw [e]
  exact matches_of_hi (mask := 0b10011) (bits := 0b00001) _ rfl rfl (by decide)

theorem pxread (y x : TileIndex) (r c : Offset3) : Statement (.pxread y x r c) := fun _ => by
  have e : encode (.pxread y x r c) =
      (0b00001 : BitVec 5) ++ (y ++ x ++ (0 : BitVec 1) ++ r ++ c) := by
    apply BitVec.eq_of_toNat_eq
    simp only [encode, toNat_append_eq]; omega
  rw [e]
  exact matches_of_hi (mask := 0b10011) (bits := 0b00001) _ rfl rfl (by decide)

/-- The words of EMIT, XFER and ADVANCE are the selector bits `00110` and a position. -/
theorem emitWord_eq (y x : TileIndex) (p : Plane) (r : Offset3) :
    ((0b00110 : BitVec 5) ++ y ++ x ++ p ++ r ++ (0 : BitVec 3) : ControlWord) =
      (0b00110 : BitVec 5) ++ (y ++ x ++ p ++ r ++ (0 : BitVec 3)) := by
  apply BitVec.eq_of_toNat_eq
  simp only [toNat_append_eq]; omega

theorem emit (y x : TileIndex) (p : Plane) (r : Offset3) : Statement (.emit y x p r) := fun _ => by
  rw [encode, emitWord_eq]
  exact matches_of_hi (mask := 0b10111) (bits := 0b00110) _ rfl rfl (by decide)

theorem xfer (y x : TileIndex) (p : Plane) (r : Offset3) : Statement (.xfer y x p r) := fun _ => by
  rw [encode, emitWord_eq]
  exact matches_of_hi (mask := 0b10111) (bits := 0b00110) _ rfl rfl (by decide)

theorem advance (y x : TileIndex) (p : Plane) (r : Offset3) : Statement (.advance y x p r) :=
  fun _ => by
  rw [encode, emitWord_eq]
  exact matches_of_hi (mask := 0b10111) (bits := 0b00110) _ rfl rfl (by decide)

end Sys2Proof.Laws.EncodeMatches
end

