-- ==== Sys2Proof/Laws/Reference.lean ====
section
/-! SUPPORT. The reference algorithm of 40_bitplane_encoder.md rule R78 as a table over offsets, and one turn
of its `col` loop in plain arithmetic. -/

namespace Sys2Proof.Machine

/-- Two nested loops over ranges are one loop over the product. -/
theorem flatMap_range_map (a b : Nat) (g : Nat → Nat → Nat) :
    ((List.range a).flatMap fun i => (List.range b).map (g i)) =
      (List.range (a * b)).map fun n => g (n / b) (n % b) := by
  induction a with
  | zero => simp
  | succ a ih =>
    rw [List.range_succ, List.flatMap_append, ih, Nat.succ_mul, List.range_add, List.map_append]
    congr 1
    simp only [List.flatMap_cons, List.flatMap_nil, List.append_nil, List.map_map]
    refine List.map_congr_left fun x hx => ?_
    have hx : x < b := List.mem_range.1 hx
    have hb : 0 < b := by omega
    simp only [Function.comp_apply]
    rw [Nat.mul_comm a b, Nat.mul_add_div hb, Nat.div_eq_of_lt hx, Nat.mul_add_mod,
      Nat.mod_eq_of_lt hx, Nat.add_zero]

/-- The byte of plane `p` of one tile row. -/
def rowByte (buffer : Nat → Nat → Nat) (tx y p : Nat) : Nat :=
  if p = 0 then (rowBytes buffer tx y 8).1 else (rowBytes buffer tx y 8).2

/-- A tile record: plane 0 of rows 0 to 7, then plane 1. -/
theorem tileBytes_eq_map (buffer : Nat → Nat → Nat) (tx ty : Nat) :
    tileBytes buffer tx ty =
      (List.range 16).map fun k => rowByte buffer tx (ty + k % 8) (k / 8) := rfl

/-- The stream as a table: the byte at offset `n` belongs to tile `n/16`, plane `n/8 % 2`, row
`n % 8`. -/
theorem encodeBuffer_eq_map (buffer : Nat → Nat → Nat) (wt ht : Nat) :
    encodeBuffer buffer (8 * wt) (8 * ht) =
      (List.range (ht * (wt * 16))).map fun n =>
        rowByte buffer (8 * (n / 16 % wt)) (8 * (n / 16 / wt) + n % 8) (n / 8 % 2) := by
  unfold encodeBuffer tileOrigins
  have tiles := fun ty =>
    flatMap_range_map wt 16 (fun tx k => rowByte buffer (8 * tx) (8 * ty + k % 8) (k / 8))
  simp only [tileBytes_eq_map, List.flatMap_map, Nat.mul_div_cancel_left _ (by decide : 0 < 8),
    tiles]
  rw [flatMap_range_map ht (wt * 16)
    (fun ty n => rowByte buffer (8 * (n / 16)) (8 * ty + n % 16 % 8) (n % 16 / 8))]
  refine List.map_congr_left fun n _ => ?_
  have tx : n % (wt * 16) / 16 = n / 16 % wt := by
    rw [Nat.mul_comm wt 16, Nat.mod_mul_right_div_self]
  have ty : n / (wt * 16) = n / 16 / wt := by rw [Nat.div_div_eq_div_mul, Nat.mul_comm]
  have k : n % (wt * 16) % 16 = n % 16 := Nat.mod_mul_left_mod _ _ _
  rw [tx, ty, k]
  congr 1 <;> omega

/-- One more turn of the `col` loop. -/
theorem rowBytes_succ (buffer : Nat → Nat → Nat) (tx y k : Nat) :
    rowBytes buffer tx y (k + 1) = rowStep buffer tx y (rowBytes buffer tx y k) k := by
  unfold rowBytes; rw [List.range_succ, List.foldl_append]; rfl

/-- One turn of the `col` loop in plain arithmetic. -/
theorem rowStep_eq (buffer : Nat → Nat → Nat) (tx y : Nat) (b : Nat × Nat) (col : Nat) :
    rowStep buffer tx y b col =
      (2 * b.1 + buffer (tx + col) y % 2, 2 * b.2 + buffer (tx + col) y / 2 % 2) := by
  have shiftIn : ∀ a c : Nat, (a <<< 1) ||| (c % 2) = 2 * a + c % 2 := by
    intro a c
    rw [← Nat.shiftLeft_add_eq_or_of_lt (by omega), Nat.shiftLeft_eq]; omega
  unfold rowStep
  simp only [Nat.and_one_is_mod, Nat.shiftRight_eq_div_pow, shiftIn, pow_one]

end Sys2Proof.Machine
end

