-- ==== Sys2Proof/Laws/State.lean ====
section
/-! SUPPORT. One lemma per field per update of State, each true by rfl: no later proof unfolds an
update. The two updates that branch, `countPixel` and `nextByte`, have theirs at the end. -/

namespace Sys2Proof.Machine

@[simp] theorem State.setPhase_phase (s : State) (p : Phase) : (s.setPhase p).phase = p := rfl
@[simp] theorem State.setPhase_pos (s : State) (p : Phase) : (s.setPhase p).pos = s.pos := rfl
@[simp] theorem State.setPhase_acc0 (s : State) (p : Phase) : (s.setPhase p).acc0 = s.acc0 := rfl
@[simp] theorem State.setPhase_acc1 (s : State) (p : Phase) : (s.setPhase p).acc1 = s.acc1 := rfl
@[simp] theorem State.setPhase_done (s : State) (p : Phase) : (s.setPhase p).done = s.done := rfl
@[simp] theorem State.setPhase_stream (s : State) (p : Phase) :
    (s.setPhase p).stream = s.stream := rfl
@[simp] theorem State.setPhase_pix (s : State) (p : Phase) : (s.setPhase p).pix = s.pix := rfl
@[simp] theorem State.setPhase_inputs (s : State) (p : Phase) :
    (s.setPhase p).inputs = s.inputs := rfl
@[simp] theorem State.setPhase_tick (s : State) (p : Phase) : (s.setPhase p).tick = s.tick := rfl
@[simp] theorem State.setPhase_pixw (s : State) (p : Phase) : (s.setPhase p).pixw = s.pixw := rfl
@[simp] theorem State.setPhase_nets (s : State) (p : Phase) : (s.setPhase p).nets = s.nets := rfl

@[simp] theorem State.setPos_phase (s : State) (v : Pos) : (s.setPos v).phase = s.phase := rfl
@[simp] theorem State.setPos_pos (s : State) (v : Pos) : (s.setPos v).pos = v := rfl
@[simp] theorem State.setPos_acc0 (s : State) (v : Pos) : (s.setPos v).acc0 = s.acc0 := rfl
@[simp] theorem State.setPos_acc1 (s : State) (v : Pos) : (s.setPos v).acc1 = s.acc1 := rfl
@[simp] theorem State.setPos_done (s : State) (v : Pos) : (s.setPos v).done = s.done := rfl
@[simp] theorem State.setPos_stream (s : State) (v : Pos) : (s.setPos v).stream = s.stream := rfl
@[simp] theorem State.setPos_pix (s : State) (v : Pos) : (s.setPos v).pix = s.pix := rfl
@[simp] theorem State.setPos_inputs (s : State) (v : Pos) : (s.setPos v).inputs = s.inputs := rfl
@[simp] theorem State.setPos_tick (s : State) (v : Pos) : (s.setPos v).tick = s.tick := rfl
@[simp] theorem State.setPos_pixw (s : State) (v : Pos) : (s.setPos v).pixw = s.pixw := rfl
@[simp] theorem State.setPos_nets (s : State) (v : Pos) : (s.setPos v).nets = s.nets := rfl

@[simp] theorem State.setAccs_phase (s : State) (a b : Byte) :
    (s.setAccs a b).phase = s.phase := rfl
@[simp] theorem State.setAccs_pos (s : State) (a b : Byte) : (s.setAccs a b).pos = s.pos := rfl
@[simp] theorem State.setAccs_acc0 (s : State) (a b : Byte) : (s.setAccs a b).acc0 = a := rfl
@[simp] theorem State.setAccs_acc1 (s : State) (a b : Byte) : (s.setAccs a b).acc1 = b := rfl
@[simp] theorem State.setAccs_done (s : State) (a b : Byte) : (s.setAccs a b).done = s.done := rfl
@[simp] theorem State.setAccs_stream (s : State) (a b : Byte) :
    (s.setAccs a b).stream = s.stream := rfl
@[simp] theorem State.setAccs_pix (s : State) (a b : Byte) : (s.setAccs a b).pix = s.pix := rfl
@[simp] theorem State.setAccs_inputs (s : State) (a b : Byte) :
    (s.setAccs a b).inputs = s.inputs := rfl
@[simp] theorem State.setAccs_tick (s : State) (a b : Byte) : (s.setAccs a b).tick = s.tick := rfl
@[simp] theorem State.setAccs_pixw (s : State) (a b : Byte) : (s.setAccs a b).pixw = s.pixw := rfl
@[simp] theorem State.setAccs_nets (s : State) (a b : Byte) : (s.setAccs a b).nets = s.nets := rfl

@[simp] theorem State.setDone_phase (s : State) : (s.setDone).phase = s.phase := rfl
@[simp] theorem State.setDone_pos (s : State) : (s.setDone).pos = s.pos := rfl
@[simp] theorem State.setDone_acc0 (s : State) : (s.setDone).acc0 = s.acc0 := rfl
@[simp] theorem State.setDone_acc1 (s : State) : (s.setDone).acc1 = s.acc1 := rfl
@[simp] theorem State.setDone_done (s : State) : (s.setDone).done = true := rfl
@[simp] theorem State.setDone_stream (s : State) : (s.setDone).stream = s.stream := rfl
@[simp] theorem State.setDone_pix (s : State) : (s.setDone).pix = s.pix := rfl
@[simp] theorem State.setDone_inputs (s : State) : (s.setDone).inputs = s.inputs := rfl
@[simp] theorem State.setDone_tick (s : State) : (s.setDone).tick = s.tick := rfl
@[simp] theorem State.setDone_pixw (s : State) : (s.setDone).pixw = s.pixw := rfl
@[simp] theorem State.setDone_nets (s : State) : (s.setDone).nets = s.nets := rfl

@[simp] theorem State.clearDone_phase (s : State) : (s.clearDone).phase = s.phase := rfl
@[simp] theorem State.clearDone_pos (s : State) : (s.clearDone).pos = s.pos := rfl
@[simp] theorem State.clearDone_acc0 (s : State) : (s.clearDone).acc0 = s.acc0 := rfl
@[simp] theorem State.clearDone_acc1 (s : State) : (s.clearDone).acc1 = s.acc1 := rfl
@[simp] theorem State.clearDone_done (s : State) : (s.clearDone).done = false := rfl
@[simp] theorem State.clearDone_stream (s : State) : (s.clearDone).stream = s.stream := rfl
@[simp] theorem State.clearDone_pix (s : State) : (s.clearDone).pix = s.pix := rfl
@[simp] theorem State.clearDone_inputs (s : State) : (s.clearDone).inputs = s.inputs := rfl
@[simp] theorem State.clearDone_tick (s : State) : (s.clearDone).tick = s.tick := rfl
@[simp] theorem State.clearDone_pixw (s : State) : (s.clearDone).pixw = s.pixw := rfl
@[simp] theorem State.clearDone_nets (s : State) : (s.clearDone).nets = s.nets := rfl

@[simp] theorem State.clearStream_phase (s : State) : (s.clearStream).phase = s.phase := rfl
@[simp] theorem State.clearStream_pos (s : State) : (s.clearStream).pos = s.pos := rfl
@[simp] theorem State.clearStream_acc0 (s : State) : (s.clearStream).acc0 = s.acc0 := rfl
@[simp] theorem State.clearStream_acc1 (s : State) : (s.clearStream).acc1 = s.acc1 := rfl
@[simp] theorem State.clearStream_done (s : State) : (s.clearStream).done = s.done := rfl
@[simp] theorem State.clearStream_stream (s : State) : (s.clearStream).stream = [] := rfl
@[simp] theorem State.clearStream_pix (s : State) : (s.clearStream).pix = s.pix := rfl
@[simp] theorem State.clearStream_inputs (s : State) : (s.clearStream).inputs = s.inputs := rfl
@[simp] theorem State.clearStream_tick (s : State) : (s.clearStream).tick = s.tick := rfl
@[simp] theorem State.clearStream_pixw (s : State) : (s.clearStream).pixw = s.pixw := rfl
@[simp] theorem State.clearStream_nets (s : State) : (s.clearStream).nets = s.nets := rfl

@[simp] theorem State.memWrite_phase (s : State) (n : Idx) (v : Byte) :
    (s.memWrite n v).phase = s.phase := rfl
@[simp] theorem State.memWrite_pos (s : State) (n : Idx) (v : Byte) :
    (s.memWrite n v).pos = s.pos := rfl
@[simp] theorem State.memWrite_acc0 (s : State) (n : Idx) (v : Byte) :
    (s.memWrite n v).acc0 = s.acc0 := rfl
@[simp] theorem State.memWrite_acc1 (s : State) (n : Idx) (v : Byte) :
    (s.memWrite n v).acc1 = s.acc1 := rfl
@[simp] theorem State.memWrite_done (s : State) (n : Idx) (v : Byte) :
    (s.memWrite n v).done = s.done := rfl
@[simp] theorem State.memWrite_stream (s : State) (n : Idx) (v : Byte) :
    (s.memWrite n v).stream = s.stream ++ [v] := rfl
@[simp] theorem State.memWrite_pix (s : State) (n : Idx) (v : Byte) :
    (s.memWrite n v).pix = s.pix := rfl
@[simp] theorem State.memWrite_inputs (s : State) (n : Idx) (v : Byte) :
    (s.memWrite n v).inputs = s.inputs := rfl
@[simp] theorem State.memWrite_tick (s : State) (n : Idx) (v : Byte) :
    (s.memWrite n v).tick = s.tick := rfl
@[simp] theorem State.memWrite_pixw (s : State) (n : Idx) (v : Byte) :
    (s.memWrite n v).pixw = s.pixw := rfl
@[simp] theorem State.memWrite_nets (s : State) (n : Idx) (v : Byte) :
    (s.memWrite n v).nets = { s.nets with taken := some (n, v) } := rfl

@[simp] theorem State.driveAddr_phase (s : State) (a : PixAddr) :
    (s.driveAddr a).phase = s.phase := rfl
@[simp] theorem State.driveAddr_pos (s : State) (a : PixAddr) : (s.driveAddr a).pos = s.pos := rfl
@[simp] theorem State.driveAddr_acc0 (s : State) (a : PixAddr) :
    (s.driveAddr a).acc0 = s.acc0 := rfl
@[simp] theorem State.driveAddr_acc1 (s : State) (a : PixAddr) :
    (s.driveAddr a).acc1 = s.acc1 := rfl
@[simp] theorem State.driveAddr_done (s : State) (a : PixAddr) :
    (s.driveAddr a).done = s.done := rfl
@[simp] theorem State.driveAddr_stream (s : State) (a : PixAddr) :
    (s.driveAddr a).stream = s.stream := rfl
@[simp] theorem State.driveAddr_pix (s : State) (a : PixAddr) : (s.driveAddr a).pix = s.pix := rfl
@[simp] theorem State.driveAddr_inputs (s : State) (a : PixAddr) :
    (s.driveAddr a).inputs = s.inputs := rfl
@[simp] theorem State.driveAddr_tick (s : State) (a : PixAddr) :
    (s.driveAddr a).tick = s.tick := rfl
@[simp] theorem State.driveAddr_pixw (s : State) (a : PixAddr) :
    (s.driveAddr a).pixw = s.pixw := rfl
@[simp] theorem State.driveAddr_nets (s : State) (a : PixAddr) :
    (s.driveAddr a).nets = { s.nets with addr := a } := rfl

@[simp] theorem State.readPixel_phase (s : State) (a : PixAddr) :
    (s.readPixel a).phase = s.phase := rfl
@[simp] theorem State.readPixel_pos (s : State) (a : PixAddr) : (s.readPixel a).pos = s.pos := rfl
@[simp] theorem State.readPixel_acc0 (s : State) (a : PixAddr) :
    (s.readPixel a).acc0 = s.acc0 := rfl
@[simp] theorem State.readPixel_acc1 (s : State) (a : PixAddr) :
    (s.readPixel a).acc1 = s.acc1 := rfl
@[simp] theorem State.readPixel_done (s : State) (a : PixAddr) :
    (s.readPixel a).done = s.done := rfl
@[simp] theorem State.readPixel_stream (s : State) (a : PixAddr) :
    (s.readPixel a).stream = s.stream := rfl
@[simp] theorem State.readPixel_pix (s : State) (a : PixAddr) : (s.readPixel a).pix = s.pix := rfl
@[simp] theorem State.readPixel_inputs (s : State) (a : PixAddr) :
    (s.readPixel a).inputs = s.inputs := rfl
@[simp] theorem State.readPixel_tick (s : State) (a : PixAddr) :
    (s.readPixel a).tick = s.tick := rfl
@[simp] theorem State.readPixel_pixw (s : State) (a : PixAddr) :
    (s.readPixel a).pixw = s.pixw := rfl
@[simp] theorem State.readPixel_nets (s : State) (a : PixAddr) :
    (s.readPixel a).nets = { s.nets with addr := a, re := true, pixel := s.memRead a } := rfl

@[simp] theorem State.extractBits_phase (s : State) : (s.extractBits).phase = s.phase := rfl
@[simp] theorem State.extractBits_pos (s : State) : (s.extractBits).pos = s.pos := rfl
@[simp] theorem State.extractBits_acc0 (s : State) : (s.extractBits).acc0 = s.acc0 := rfl
@[simp] theorem State.extractBits_acc1 (s : State) : (s.extractBits).acc1 = s.acc1 := rfl
@[simp] theorem State.extractBits_done (s : State) : (s.extractBits).done = s.done := rfl
@[simp] theorem State.extractBits_stream (s : State) : (s.extractBits).stream = s.stream := rfl
@[simp] theorem State.extractBits_pix (s : State) : (s.extractBits).pix = s.pix := rfl
@[simp] theorem State.extractBits_inputs (s : State) : (s.extractBits).inputs = s.inputs := rfl
@[simp] theorem State.extractBits_tick (s : State) : (s.extractBits).tick = s.tick := rfl
@[simp] theorem State.extractBits_pixw (s : State) : (s.extractBits).pixw = s.pixw := rfl
@[simp] theorem State.extractBits_nets (s : State) :
    (s.extractBits).nets = { s.nets with b0 := (bitsOf s.nets.pixel).1, b1 := (bitsOf s.nets.pixel).2 } := rfl

@[simp] theorem State.packBits_phase (s : State) : (s.packBits).phase = s.phase := rfl
@[simp] theorem State.packBits_pos (s : State) : (s.packBits).pos = s.pos := rfl
@[simp] theorem State.packBits_acc0 (s : State) :
    (s.packBits).acc0 = packBit s.acc0 s.nets.b0 := rfl
@[simp] theorem State.packBits_acc1 (s : State) :
    (s.packBits).acc1 = packBit s.acc1 s.nets.b1 := rfl
@[simp] theorem State.packBits_done (s : State) : (s.packBits).done = s.done := rfl
@[simp] theorem State.packBits_stream (s : State) : (s.packBits).stream = s.stream := rfl
@[simp] theorem State.packBits_pix (s : State) : (s.packBits).pix = s.pix := rfl
@[simp] theorem State.packBits_inputs (s : State) : (s.packBits).inputs = s.inputs := rfl
@[simp] theorem State.packBits_tick (s : State) : (s.packBits).tick = s.tick := rfl
@[simp] theorem State.packBits_pixw (s : State) : (s.packBits).pixw = s.pixw := rfl
@[simp] theorem State.packBits_nets (s : State) : (s.packBits).nets = s.nets := rfl

@[simp] theorem State.clearAccs_phase (s : State) : (s.clearAccs).phase = s.phase := rfl
@[simp] theorem State.clearAccs_pos (s : State) : (s.clearAccs).pos = s.pos := rfl
@[simp] theorem State.clearAccs_acc0 (s : State) : (s.clearAccs).acc0 = 0 := rfl
@[simp] theorem State.clearAccs_acc1 (s : State) : (s.clearAccs).acc1 = 0 := rfl
@[simp] theorem State.clearAccs_done (s : State) : (s.clearAccs).done = s.done := rfl
@[simp] theorem State.clearAccs_stream (s : State) : (s.clearAccs).stream = s.stream := rfl
@[simp] theorem State.clearAccs_pix (s : State) : (s.clearAccs).pix = s.pix := rfl
@[simp] theorem State.clearAccs_inputs (s : State) : (s.clearAccs).inputs = s.inputs := rfl
@[simp] theorem State.clearAccs_tick (s : State) : (s.clearAccs).tick = s.tick := rfl
@[simp] theorem State.clearAccs_pixw (s : State) : (s.clearAccs).pixw = s.pixw := rfl
@[simp] theorem State.clearAccs_nets (s : State) : (s.clearAccs).nets = s.nets := rfl

@[simp] theorem State.selectByte_phase (s : State) (p : Plane) :
    (s.selectByte p).phase = s.phase := rfl
@[simp] theorem State.selectByte_pos (s : State) (p : Plane) : (s.selectByte p).pos = s.pos := rfl
@[simp] theorem State.selectByte_acc0 (s : State) (p : Plane) :
    (s.selectByte p).acc0 = s.acc0 := rfl
@[simp] theorem State.selectByte_acc1 (s : State) (p : Plane) :
    (s.selectByte p).acc1 = s.acc1 := rfl
@[simp] theorem State.selectByte_done (s : State) (p : Plane) :
    (s.selectByte p).done = s.done := rfl
@[simp] theorem State.selectByte_stream (s : State) (p : Plane) :
    (s.selectByte p).stream = s.stream := rfl
@[simp] theorem State.selectByte_pix (s : State) (p : Plane) : (s.selectByte p).pix = s.pix := rfl
@[simp] theorem State.selectByte_inputs (s : State) (p : Plane) :
    (s.selectByte p).inputs = s.inputs := rfl
@[simp] theorem State.selectByte_tick (s : State) (p : Plane) :
    (s.selectByte p).tick = s.tick := rfl
@[simp] theorem State.selectByte_pixw (s : State) (p : Plane) :
    (s.selectByte p).pixw = s.pixw := rfl
@[simp] theorem State.selectByte_nets (s : State) (p : Plane) :
    (s.selectByte p).nets = { s.nets with byte := s.acc p } := rfl

@[simp] theorem State.transfer_phase (s : State) (n : Idx) : (s.transfer n).phase = s.phase := rfl
@[simp] theorem State.transfer_pos (s : State) (n : Idx) : (s.transfer n).pos = s.pos := rfl
@[simp] theorem State.transfer_acc0 (s : State) (n : Idx) : (s.transfer n).acc0 = s.acc0 := rfl
@[simp] theorem State.transfer_acc1 (s : State) (n : Idx) : (s.transfer n).acc1 = s.acc1 := rfl
@[simp] theorem State.transfer_done (s : State) (n : Idx) : (s.transfer n).done = s.done := rfl
@[simp] theorem State.transfer_stream (s : State) (n : Idx) :
    (s.transfer n).stream = s.stream ++ [s.nets.byte] := rfl
@[simp] theorem State.transfer_pix (s : State) (n : Idx) : (s.transfer n).pix = s.pix := rfl
@[simp] theorem State.transfer_inputs (s : State) (n : Idx) :
    (s.transfer n).inputs = s.inputs := rfl
@[simp] theorem State.transfer_tick (s : State) (n : Idx) : (s.transfer n).tick = s.tick := rfl
@[simp] theorem State.transfer_pixw (s : State) (n : Idx) : (s.transfer n).pixw = s.pixw := rfl
@[simp] theorem State.transfer_nets (s : State) (n : Idx) :
    (s.transfer n).nets = { s.nets with taken := some (n, s.nets.byte) } := rfl

@[simp] theorem State.advanceTo_phase (s : State) (n : Idx) : (s.advanceTo n).phase = .shift := rfl
@[simp] theorem State.advanceTo_pos (s : State) (n : Idx) :
    (s.advanceTo n).pos = posOfIdx (n + 1) := rfl
@[simp] theorem State.advanceTo_acc0 (s : State) (n : Idx) : (s.advanceTo n).acc0 = s.acc0 := rfl
@[simp] theorem State.advanceTo_acc1 (s : State) (n : Idx) : (s.advanceTo n).acc1 = s.acc1 := rfl
@[simp] theorem State.advanceTo_done (s : State) (n : Idx) : (s.advanceTo n).done = s.done := rfl
@[simp] theorem State.advanceTo_stream (s : State) (n : Idx) :
    (s.advanceTo n).stream = s.stream := rfl
@[simp] theorem State.advanceTo_pix (s : State) (n : Idx) : (s.advanceTo n).pix = s.pix := rfl
@[simp] theorem State.advanceTo_inputs (s : State) (n : Idx) :
    (s.advanceTo n).inputs = s.inputs := rfl
@[simp] theorem State.advanceTo_tick (s : State) (n : Idx) : (s.advanceTo n).tick = s.tick := rfl
@[simp] theorem State.advanceTo_pixw (s : State) (n : Idx) : (s.advanceTo n).pixw = s.pixw := rfl
@[simp] theorem State.advanceTo_nets (s : State) (n : Idx) : (s.advanceTo n).nets = s.nets := rfl

@[simp] theorem State.finishRun_phase (s : State) : (s.finishRun).phase = .idle := rfl
@[simp] theorem State.finishRun_pos (s : State) : (s.finishRun).pos = 0 := rfl
@[simp] theorem State.finishRun_acc0 (s : State) : (s.finishRun).acc0 = s.acc0 := rfl
@[simp] theorem State.finishRun_acc1 (s : State) : (s.finishRun).acc1 = s.acc1 := rfl
@[simp] theorem State.finishRun_done (s : State) : (s.finishRun).done = true := rfl
@[simp] theorem State.finishRun_stream (s : State) : (s.finishRun).stream = s.stream := rfl
@[simp] theorem State.finishRun_pix (s : State) : (s.finishRun).pix = s.pix := rfl
@[simp] theorem State.finishRun_inputs (s : State) : (s.finishRun).inputs = s.inputs := rfl
@[simp] theorem State.finishRun_tick (s : State) : (s.finishRun).tick = s.tick := rfl
@[simp] theorem State.finishRun_pixw (s : State) : (s.finishRun).pixw = s.pixw := rfl
@[simp] theorem State.finishRun_nets (s : State) : (s.finishRun).nets = s.nets := rfl

@[simp] theorem State.clearRun_phase (s : State) : (s.clearRun).phase = s.phase := rfl
@[simp] theorem State.clearRun_pos (s : State) : (s.clearRun).pos = 0 := rfl
@[simp] theorem State.clearRun_acc0 (s : State) : (s.clearRun).acc0 = 0 := rfl
@[simp] theorem State.clearRun_acc1 (s : State) : (s.clearRun).acc1 = 0 := rfl
@[simp] theorem State.clearRun_done (s : State) : (s.clearRun).done = false := rfl
@[simp] theorem State.clearRun_stream (s : State) : (s.clearRun).stream = [] := rfl
@[simp] theorem State.clearRun_pix (s : State) : (s.clearRun).pix = s.pix := rfl
@[simp] theorem State.clearRun_inputs (s : State) : (s.clearRun).inputs = s.inputs := rfl
@[simp] theorem State.clearRun_tick (s : State) : (s.clearRun).tick = s.tick := rfl
@[simp] theorem State.clearRun_pixw (s : State) : (s.clearRun).pixw = s.pixw := rfl
@[simp] theorem State.clearRun_nets (s : State) : (s.clearRun).nets = s.nets := rfl

@[simp] theorem State.sample_phase (s : State) : (s.sample).phase = s.phase := rfl
@[simp] theorem State.sample_pos (s : State) : (s.sample).pos = s.pos := rfl
@[simp] theorem State.sample_acc0 (s : State) : (s.sample).acc0 = s.acc0 := rfl
@[simp] theorem State.sample_acc1 (s : State) : (s.sample).acc1 = s.acc1 := rfl
@[simp] theorem State.sample_done (s : State) : (s.sample).done = s.done := rfl
@[simp] theorem State.sample_stream (s : State) : (s.sample).stream = s.stream := rfl
@[simp] theorem State.sample_pix (s : State) :
    (s.sample).pix = Memory.hostWrites s.pixw s.pix s.sampled.hostWrites := rfl
@[simp] theorem State.sample_inputs (s : State) : (s.sample).inputs = s.inputs.tail := rfl
@[simp] theorem State.sample_tick (s : State) : (s.sample).tick = s.tick + 1 := rfl
@[simp] theorem State.sample_pixw (s : State) : (s.sample).pixw = s.pixw := rfl
@[simp] theorem State.sample_nets (s : State) : (s.sample).nets = s.nets := rfl

@[simp] theorem State.settle_phase (s : State) : (s.settle).phase = s.phase := rfl
@[simp] theorem State.settle_pos (s : State) : (s.settle).pos = s.pos := rfl
@[simp] theorem State.settle_acc0 (s : State) : (s.settle).acc0 = s.acc0 := rfl
@[simp] theorem State.settle_acc1 (s : State) : (s.settle).acc1 = s.acc1 := rfl
@[simp] theorem State.settle_done (s : State) : (s.settle).done = s.done := rfl
@[simp] theorem State.settle_stream (s : State) : (s.settle).stream = s.stream := rfl
@[simp] theorem State.settle_pix (s : State) : (s.settle).pix = s.pix := rfl
@[simp] theorem State.settle_inputs (s : State) : (s.settle).inputs = s.inputs := rfl
@[simp] theorem State.settle_tick (s : State) : (s.settle).tick = s.tick := rfl
@[simp] theorem State.settle_pixw (s : State) : (s.settle).pixw = s.pixw := rfl
@[simp] theorem State.settle_nets (s : State) : (s.settle).nets = Nets.quiet := rfl

@[simp] theorem State.scheduled_phase (s : State) (f : Nat → Inputs) (n : Nat) :
    (s.scheduled f n).phase = s.phase := rfl
@[simp] theorem State.scheduled_pos (s : State) (f : Nat → Inputs) (n : Nat) :
    (s.scheduled f n).pos = s.pos := rfl
@[simp] theorem State.scheduled_acc0 (s : State) (f : Nat → Inputs) (n : Nat) :
    (s.scheduled f n).acc0 = s.acc0 := rfl
@[simp] theorem State.scheduled_acc1 (s : State) (f : Nat → Inputs) (n : Nat) :
    (s.scheduled f n).acc1 = s.acc1 := rfl
@[simp] theorem State.scheduled_done (s : State) (f : Nat → Inputs) (n : Nat) :
    (s.scheduled f n).done = s.done := rfl
@[simp] theorem State.scheduled_stream (s : State) (f : Nat → Inputs) (n : Nat) :
    (s.scheduled f n).stream = s.stream := rfl
@[simp] theorem State.scheduled_pix (s : State) (f : Nat → Inputs) (n : Nat) :
    (s.scheduled f n).pix = s.pix := rfl
@[simp] theorem State.scheduled_inputs (s : State) (f : Nat → Inputs) (n : Nat) :
    (s.scheduled f n).inputs = (List.range n).map f := rfl
@[simp] theorem State.scheduled_tick (s : State) (f : Nat → Inputs) (n : Nat) :
    (s.scheduled f n).tick = s.tick := rfl
@[simp] theorem State.scheduled_pixw (s : State) (f : Nat → Inputs) (n : Nat) :
    (s.scheduled f n).pixw = s.pixw := rfl
@[simp] theorem State.scheduled_nets (s : State) (f : Nat → Inputs) (n : Nat) :
    (s.scheduled f n).nets = s.nets := rfl

@[simp] theorem State.countPixel_phase (s : State) (c : Offset3) :
    (s.countPixel c).phase = if c = 7 then .emit else s.phase := by
  unfold State.countPixel; split <;> rfl
@[simp] theorem State.countPixel_pos (s : State) (c : Offset3) :
    (s.countPixel c).pos = posSetCol s.pos (c + 1) := by
  unfold State.countPixel; split <;> rfl
@[simp] theorem State.countPixel_acc0 (s : State) (c : Offset3) :
    (s.countPixel c).acc0 = s.acc0 := by
  unfold State.countPixel; split <;> rfl
@[simp] theorem State.countPixel_acc1 (s : State) (c : Offset3) :
    (s.countPixel c).acc1 = s.acc1 := by
  unfold State.countPixel; split <;> rfl
@[simp] theorem State.countPixel_done (s : State) (c : Offset3) :
    (s.countPixel c).done = s.done := by
  unfold State.countPixel; split <;> rfl
@[simp] theorem State.countPixel_stream (s : State) (c : Offset3) :
    (s.countPixel c).stream = s.stream := by
  unfold State.countPixel; split <;> rfl
@[simp] theorem State.countPixel_pix (s : State) (c : Offset3) :
    (s.countPixel c).pix = s.pix := by
  unfold State.countPixel; split <;> rfl
@[simp] theorem State.countPixel_inputs (s : State) (c : Offset3) :
    (s.countPixel c).inputs = s.inputs := by
  unfold State.countPixel; split <;> rfl
@[simp] theorem State.countPixel_tick (s : State) (c : Offset3) :
    (s.countPixel c).tick = s.tick := by
  unfold State.countPixel; split <;> rfl
@[simp] theorem State.countPixel_pixw (s : State) (c : Offset3) :
    (s.countPixel c).pixw = s.pixw := by
  unfold State.countPixel; split <;> rfl
@[simp] theorem State.countPixel_nets (s : State) (c : Offset3) :
    (s.countPixel c).nets = s.nets := by
  unfold State.countPixel; split <;> rfl

@[simp] theorem State.nextByte_phase (s : State) (n : Idx) :
    (s.nextByte n).phase = if n = 0xFFF then .idle else .shift := by
  unfold State.nextByte; split <;> rfl
@[simp] theorem State.nextByte_pos (s : State) (n : Idx) :
    (s.nextByte n).pos = if n = 0xFFF then 0 else posOfIdx (n + 1) := by
  unfold State.nextByte; split <;> rfl
@[simp] theorem State.nextByte_done (s : State) (n : Idx) :
    (s.nextByte n).done = if n = 0xFFF then true else s.done := by
  unfold State.nextByte; split <;> rfl
@[simp] theorem State.nextByte_acc0 (s : State) (n : Idx) :
    (s.nextByte n).acc0 = s.acc0 := by
  unfold State.nextByte; split <;> rfl
@[simp] theorem State.nextByte_acc1 (s : State) (n : Idx) :
    (s.nextByte n).acc1 = s.acc1 := by
  unfold State.nextByte; split <;> rfl
@[simp] theorem State.nextByte_stream (s : State) (n : Idx) :
    (s.nextByte n).stream = s.stream := by
  unfold State.nextByte; split <;> rfl
@[simp] theorem State.nextByte_pix (s : State) (n : Idx) :
    (s.nextByte n).pix = s.pix := by
  unfold State.nextByte; split <;> rfl
@[simp] theorem State.nextByte_inputs (s : State) (n : Idx) :
    (s.nextByte n).inputs = s.inputs := by
  unfold State.nextByte; split <;> rfl
@[simp] theorem State.nextByte_tick (s : State) (n : Idx) :
    (s.nextByte n).tick = s.tick := by
  unfold State.nextByte; split <;> rfl
@[simp] theorem State.nextByte_pixw (s : State) (n : Idx) :
    (s.nextByte n).pixw = s.pixw := by
  unfold State.nextByte; split <;> rfl
@[simp] theorem State.nextByte_nets (s : State) (n : Idx) :
    (s.nextByte n).nets = s.nets := by
  unfold State.nextByte; split <;> rfl

/-- All that `countPixel` does. -/
theorem State.countPixel_eq (s : State) (c : Offset3) :
    s.countPixel c = { s with phase := if c = 7 then .emit else s.phase
                              pos := posSetCol s.pos (c + 1) } := by
  unfold State.countPixel; split <;> rfl

/-- All that `nextByte` does. -/
theorem State.nextByte_eq (s : State) (n : Idx) :
    s.nextByte n = { s with phase := if n = 0xFFF then .idle else .shift
                            pos := if n = 0xFFF then 0 else posOfIdx (n + 1)
                            done := if n = 0xFFF then true else s.done } := by
  unfold State.nextByte; split <;> rfl

@[simp] theorem State.sampled_cons (s : State) (i : Inputs) (rest : List Inputs)
    (h : s.inputs = i :: rest) : s.sampled = i := by
  unfold State.sampled; rw [h]

@[simp] theorem State.acc_zero (s : State) : s.acc 0 = s.acc0 := rfl
@[simp] theorem State.acc_one (s : State) : s.acc 1 = s.acc1 := rfl

end Sys2Proof.Machine
end

