-- ==== Sys2Proof/Laws/Step.lean ====
section
/-! SUPPORT. What a step can do, once: the inversion of `step`, and how runs compose. -/

namespace Sys2Proof.Machine

@[simp] theorem settleOutcome_next (t : State) :
    settleOutcome (.next t : Host.Outcome State Fault Refusal) = .next t.settle := rfl

/-- If a step answers `next t`, the decoder gave an operation, the operation gave a next state from the
sampled state, and `t` is that state with quiet nets. -/
theorem step_next_cases {s t : State} (h : step s = .next t) :
    ∃ i u, decode s.fetchWord = .ok i ∧ exec i s.sample = .next u ∧ t = u.settle := by
  unfold step at h
  split at h
  · rename_i i hi
    cases hu : exec i s.sample with
    | next u =>
      rw [hu, settleOutcome_next] at h
      cases h
      exact ⟨i, u, hi, hu, rfl⟩
    | fault r => rw [hu] at h; cases h
    | refused r => rw [hu] at h; cases h
  · cases h

theorem run_zero (s : State) : Host.Core.run core 0 s = .next s := rfl

/-- A run whose first step has a next state goes on from there. -/
theorem run_succ_of_step {s t : State} (h : step s = .next t) (n : Nat) :
    Host.Core.run core (n + 1) s = Host.Core.run core n t := by
  have one : ∀ (M : Host.Core) (x y : M.State), M.step x = .next y →
      M.run (n + 1) x = M.run n y := by
    intro M x y hxy
    rw [Host.Core.run, hxy]
  exact one core s t h

/-- Runs compose. -/
theorem run_add_of_run {m : Nat} : ∀ {s t : State}, Host.Core.run core m s = .next t →
    ∀ n, Host.Core.run core (m + n) s = Host.Core.run core n t := by
  induction m with
  | zero => intro s t h n; rw [run_zero] at h; cases h; rw [Nat.zero_add]
  | succ m ih =>
    intro s t h n
    rw [Nat.succ_add]
    cases hs : step s with
    | next u =>
      rw [run_succ_of_step hs] at h ⊢
      exact ih h n
    | fault r => cases r
    | refused r =>
      have one : ∀ (M : Host.Core) (x y : M.State) (r : M.Refusal), M.step x = .refused r →
          M.run (m + 1) x ≠ .next y := by
        intro M x y r hxy
        rw [Host.Core.run, hxy]
        exact fun e => nomatch e
      exact absurd h (one core s t r hs)

/-- The inputs of a scheduled state: its first sample is the schedule's first. -/
theorem scheduled_sampled (s : State) (f : Nat → Inputs) (n : Nat) :
    (s.scheduled f (n + 1)).sampled = f 0 := by
  apply State.sampled_cons _ _ ((List.range n).map fun k => f (k + 1))
  simp [List.range_succ_eq_map, Function.comp_def]

/-- What is left of a schedule after its first sample. -/
theorem scheduled_tail (s : State) (f : Nat → Inputs) (n : Nat) :
    (s.scheduled f (n + 1)).inputs.tail = (List.range n).map fun k => f (k + 1) := by
  simp [List.range_succ_eq_map, Function.comp_def]

end Sys2Proof.Machine
end

