-- ==== Sys2Proof/Tests/Slice0.lean ====
section
/-! SUPPORT. Tests. Expected results come from 95_test_vectors.md, the examples of the rules, or hand
calculation from them; each names its source. At the end, for every statement with hypotheses, a state
or operands that meet them. -/

namespace Sys2Proof.Tests

open Sys2Proof Sys2Proof.Machine

/-- A state in the notation of 95_test_vectors.md, `(phase, pos, (acc[0], acc[1]), done)`. -/
def st (phase : Phase) (pos : Pos) (a0 a1 : Byte) (done : Bool) : State :=
  { State.reset with phase := phase, pos := pos, acc0 := a0, acc1 := a1, done := done }

/-- The input sample of one step. -/
def inp (rst start outReady : Bool) : Inputs :=
  { rst := rst, start := start, outReady := outReady, hostWrites := [] }

/-- One step of a state under one sample. -/
def stepWith (i : Inputs) (s : State) : Option State :=
  match step { s with inputs := [i] } with
  | .next t => some t
  | _ => none

/-- The five items and the history. -/
structure Block where
  phase  : Phase
  pos    : Pos
  acc0   : Byte
  acc1   : Byte
  done   : Bool
  stream : List Byte
  deriving DecidableEq, Repr

/-- The five items and the history of a state. -/
def five (s : State) : Block :=
  { phase := s.phase, pos := s.pos, acc0 := s.acc0, acc1 := s.acc1, done := s.done
    stream := s.stream }

/-- One operation by itself. -/
def after (i : Instr) (s : State) : Option State :=
  match exec i s with
  | .next t => some t
  | _ => none

/-! ## Well-formedness -/

/-- 30_encoding.md rule R57: ADVANCE is not selected with `idx = 0xFFF`. -/
theorem test_wellFormed_refuses_advance_all_ones : (Instr.advance 15 15 1 7).wellFormed = false := by
  decide

theorem test_wellFormed_takes_advance : (Instr.advance 15 15 1 6).wellFormed = true := by decide

/-- 30_encoding.md rule R58: `ph = 11` names no phase. -/
theorem test_wellFormed_refuses_phase_three : ControlWord.wellFormed 0x18000 = false := by decide

theorem test_decode_rejects_phase_three : decodeTableWord 24 0x18000 = none := by decide

/-! ## Decoding: words written out from the encoding strings of opcode_table.json -/

theorem test_decode_reset : decodeTableWord 24 0b10000000000000000000 = some .reset := by decide

theorem test_decode_idle : decodeTableWord 24 0b00100000000000000000 = some .idle := by decide

theorem test_decode_start : decodeTableWord 24 0b01100000000000000000 = some .start := by decide

/-- `pos = 0x1ABD` (41_pixel_buffer_reader.md rule R90), tyi 3, txi 5, plane 0, row 7, col 5; `start` and
`out_ready` are not examined. -/
theorem test_decode_shift :
    decodeTableWord 24 0b01101001101010111101 = some (.shift 3 5 0 7 5) := by decide

/-- `idx = 0x00F`: tile (0, 0), pass 1, row 7 (43_tile_serializer.md rule R113). -/
theorem test_decode_emit : decodeTableWord 24 0b00110000000001111000 = some (.emit 0 0 1 7) := by
  decide

theorem test_decode_stall : decodeTableWord 24 0b00010000000001000000 = some (.stall 1) := by decide

theorem test_decodeAs_pxaddr :
    decodeAs .pxaddr 0b00001001101010111101 = .ok (.pxaddr 3 5 7 5) := rfl

theorem test_decodeAs_pxread :
    decodeAs .pxread 0b00001001101011111101 = .ok (.pxread 3 5 7 5) := rfl

theorem test_components_shift : components 0b00001001101010111101 =
    [.pxaddr 3 5 7 5, .pxread 3 5 7 5, .bitx, .pack] := by decide

theorem test_components_emit : components 0b00110000000001111000 =
    [.sel 1, .xfer 0 0 1 7, .clear, .advance 0 0 1 7] := by decide

/-- FINISH takes precedence over ADVANCE (30_encoding.md rule R58). -/
theorem test_components_finish : components 0b00110111111111111000 =
    [.sel 1, .xfer 15 15 1 7, .clear, .finish] := by decide

theorem test_components_stall : components 0b00010000000001000000 = [.sel 1] := by decide

/-! ## The step operations (95_test_vectors.md part B8 and the examples of the rules) -/

theorem test_reset_wins : (stepWith (inp true true true) (st .shift 0x0123 0x01 0x02 false)).map five =
    some ⟨.idle, 0, 0, 0, false, []⟩ := by decide

/-- 40_bitplane_encoder.md rule R71's example: the offered byte is dropped. -/
theorem test_reset_drops_byte :
    (stepWith (inp true false true) (st .emit 0x0008 0xFF 0x00 false)).map five =
      some ⟨.idle, 0, 0, 0, false, []⟩ := by decide

theorem test_idle_keeps_done : (stepWith (inp false false true) (st .idle 0 0 0 true)).map five =
    some ⟨.idle, 0, 0, 0, true, []⟩ := by decide

theorem test_start_clears_done : (stepWith (inp false true false) (st .idle 0 0 0 true)).map five =
    some ⟨.shift, 0, 0, 0, false, []⟩ := by decide

/-- `PIX[3, 0] = 3`; `start` is ignored. -/
theorem test_shift : (stepWith (inp false true true)
      { st .shift 0x0003 0x02 0x01 false with pix := [(3, 3)] }).map five =
    some ⟨.shift, 0x0004, 0x05, 0x03, false, []⟩ := by decide

/-- `PIX[7, 0] = 3`, `col = 7`. -/
theorem test_shift_last_column : (stepWith (inp false false false)
      { st .shift 0x0007 0x2A 0x19 false with pix := [(7, 3)] }).map five =
    some ⟨.emit, 0x0000, 0x55, 0x33, false, []⟩ := by decide

theorem test_stall : (stepWith (inp false false false) (st .emit 0x0000 0x55 0x33 false)).map five =
    some ⟨.emit, 0x0000, 0x55, 0x33, false, []⟩ := by decide

theorem test_emit_advances : (stepWith (inp false false true)
      (st .emit 0x0040 0x55 0x33 false)).map five =
    some ⟨.shift, 0x0048, 0, 0, false, [0x33]⟩ := by decide

theorem test_emit_finishes : (stepWith (inp false true true)
      (st .emit 0x7FF8 0xAA 0x99 false)).map five =
    some ⟨.idle, 0, 0, 0, true, [0x99]⟩ := by decide

/-! ## The component operations (95_test_vectors.md parts B1 to B5) -/

theorem test_pxaddr : (after (.pxaddr 3 5 7 5) State.reset).map (·.nets.addr) = some 0x0FAD := by
  decide

theorem test_pxaddr_largest : (after (.pxaddr 15 15 7 7) State.reset).map (·.nets.addr) =
    some 0x3FFF := by decide

/-- 41_pixel_buffer_reader.md rule R91's example, `PIX[45, 31] = 0x07`. -/
theorem test_pxread : (after (.pxread 3 5 7 5) { State.reset with pix := [(0x0FAD, 0x07)] }).map
    (fun t => (t.nets.re, t.nets.addr, t.nets.pixel)) = some (true, 0x0FAD, 0x07) := by decide

theorem test_bitx : (after .bitx { State.reset with nets.pixel := 0xFE }).map
    (fun t => (t.nets.b0, t.nets.b1)) = some (0, 1) := by decide

theorem test_bitx_masks : [0x00, 0x01, 0x02, 0x03, 0x04, 0x05, 0x06, 0x07].map bitsOf =
    [(0, 0), (1, 0), (0, 1), (1, 1), (0, 0), (1, 0), (0, 1), (1, 1)] := by decide

theorem test_pack : (after .pack { st .shift 0 0x55 0x80 false with nets.b0 := 1 }).map
    (fun t => (t.acc0, t.acc1)) = some (0xAB, 0x00) := by decide

theorem test_clear : (after .clear (st .emit 0 0xAA 0x0F false)).map
    (fun t => (t.acc0, t.acc1)) = some (0, 0) := by decide

theorem test_sel : (after (.sel 1) (st .emit 0 0x55 0x33 false)).map (·.nets.byte) =
    some 0x33 := by decide

/-- 43_tile_serializer.md rule R111's example, byte 7. -/
theorem test_xfer : (after (.xfer 0 0 0 7) { State.reset with nets.byte := 0xAA }).map
    (fun t => (t.stream, t.nets.taken)) = some ([0xAA], some (7, 0xAA)) := by decide

/-- 43_tile_serializer.md rule R113's examples: `0x00F` to `0x010` and `0x0FF` to `0x100`. -/
theorem test_advance : (after (.advance 0 0 1 7) State.reset).map (fun t => (t.phase, t.pos)) =
    some (.shift, 0x0080) := by decide

theorem test_advance_tile_row : (after (.advance 0 15 1 7) State.reset).map (·.pos) =
    some 0x0800 := by decide

theorem test_finish : (after .finish (st .emit 0x7FF8 0 0x99 false)).map five =
    some ⟨.idle, 0, 0, 0x99, true, []⟩ := by decide

/-! ## Memory, ports, placement -/

theorem test_write_removes_unwritten_value :
    Memory.write [(3, 1), (5, 2)] 3 0 = [(5, 2)] := by decide

/-- 95_test_vectors.md program P3, step 9. -/
theorem test_outputs_offered_byte : (st .emit 0x0000 0x55 0x33 false).outputs =
    { busy := true, done := false, pxRe := false, pxAddr := 0, outValid := true,
      outData := 0x55 } := by decide

/-- A placed word runs as the first operation after reset: SHIFT of `pos = 0x1ABD` over an empty PIX. -/
theorem test_placed_word_runs : (match step (State.reset.withFetchWord 24 0x09ABD) with
    | .next t => some (five t) | _ => none) = some ⟨.shift, 0x1ABE, 0, 0, false, []⟩ := by decide

/-! ## Witnesses: hypotheses of the statements are met -/

/-- A schedule: START in step 0, a sink that is always ready. -/
def readySched (n : Nat) : Inputs := inp false (n == 0) true

theorem witness_DecodeEncodeAgree : (Instr.advance 15 15 1 6).wellFormed = true ∧
    Instr.kind (.advance 15 15 1 6) = .component ∧ (Instr.shift 15 15 1 7 7).wellFormed = true ∧
    Instr.kind (.shift 15 15 1 7 7) = .step := by decide

theorem witness_EncodeDecodeAgree : decodeAs .sel 0x77FFF = .ok (.sel 1) := rfl

theorem witness_OneStepRowPerWord : cwPhase 0xF7FFF ≠ 3 ∧ cwPhase 0xFFFFF = 3 := by decide

theorem witness_PlacedWordIsFetched : (0xF7FFF : Nat) < 2 ^ 20 ∧
    cwPhase (BitVec.ofNat 20 0xF7FFF) ≠ 3 := by decide

theorem witness_StepRunsDecodedOperation :
    decode ({ State.reset with inputs := [inp false true false] } : State).fetchWord =
      .ok .start := rfl

theorem witness_UnsampledInputsIgnored :
    ((inp false true true).rst = (inp false false true).rst ∧
      (st .emit 0 0 0 false).phase = .emit ∧ (st .emit 0 0 0 false).phase ≠ .idle) ∧
    (stepWith (inp false true true) (st .emit 0 0 0 false)).isSome = true ∧
    (stepWith (inp false true true) { st .emit 0 0 0 false with pix := [(1, 1)] }).isSome = true := by
  decide

theorem witness_ResetFromAnyState :
    ({ State.reset with inputs := [inp true true true] } : State).sampled.rst = true := rfl

/-- A step that sets `done`, one that clears it, one that holds it. -/
theorem witness_DoneFlagRule :
    (stepWith (inp false false true) (st .emit 0x7FF8 0 0 false)).map (·.done) = some true ∧
    (stepWith (inp false true true) (st .idle 0 0 0 true)).map (·.done) = some false ∧
    (stepWith (inp false false true) (st .idle 0 0 0 true)).map (·.done) = some true := by decide

/-- Each of the five items and the history is changed by some operation. -/
theorem witness_OnlyNamedOperationsWrite :
    (after .start State.reset).map (·.phase) = some .shift ∧
    (after (.advance 0 0 0 0) State.reset).map (·.pos) = some 8 ∧
    (after .clear (st .emit 0 1 1 false)).map (·.acc0) = some 0 ∧
    (after .finish State.reset).map (·.done) = some true ∧
    (after (.xfer 0 0 0 0) State.reset).map (·.stream) = some [0] ∧
    (after .reset { State.reset with stream := [1] }).map (·.stream) = some [] := by decide

theorem witness_AdvanceResult : (6 : Offset3) ≠ 7 ∧ (14 : TileIndex) ≠ 15 := by decide

theorem witness_EmitResult : (15 * 16 + 15) * 16 + 1 * 8 + 7 = 4095 ∧
    (15 * 16 + 15) * 16 + 1 * 8 + 6 ≠ 4095 := by decide

theorem witness_StepOperationsAreTheirComponents : (inp false false true).rst = false ∧
    (st .emit 0x7FF8 0 0 false).phase = .emit ∧ (st .shift 0x7FFF 0 0 false).phase = .shift := by
  decide

theorem witness_InvariantsAtLaunch :
    State.launch { State.reset with pix := [(0, 3), (16383, 1)], inputs := [inp false true true] } :=
  ⟨⟨rfl, rfl, rfl, rfl, rfl, rfl⟩, rfl, by decide⟩

/-- A state of phase EMIT, reachable as rule R25 has it, that meets the invariants and steps. -/
theorem witness_StepKeepsInvariants : (st .emit 0 0x55 0x33 false).Inv ∧
    (stepWith (inp false false true) (st .emit 0 0x55 0x33 false)).isSome = true := by
  refine ⟨⟨?_, ?_, ?_, ?_, ?_, ?_, ?_⟩, by decide⟩ <;> simp [st, State.reset, posCol, posIdx]

theorem witness_ReachableStatesKeepInvariants : Reachable State.reset :=
  .launch _ ⟨⟨rfl, rfl, rfl, rfl, rfl, rfl⟩, rfl, rfl⟩

theorem witness_PixIsTheHosts :
    Memory.wf Pixw.standard [(0, 3), (16383, 1)] = true ∧
    (stepWith (inp false false false) { State.reset with pix := [(0, 3), (16383, 1)] }).map (·.pix) =
      some [(0, 3), (16383, 1)] ∧
    (stepWith { inp false false false with hostWrites := [{ addr := 0, value := 2 }] }
      { State.reset with pix := [(0, 3), (16383, 1)] }).map (·.pix) =
      some [(0, 2), (16383, 1)] ∧
    (stepWith { inp false false false with
        hostWrites := [{ addr := 0, value := 2 }, { addr := 5, value := 1 },
          { addr := 0, value := 0x103 }] }
      { State.reset with pix := [(0, 3), (16383, 1)] }).map (·.pix) =
        some [(0, 3), (5, 1), (16383, 1)] := by
  decide

/-- A canonical PIX with an entry whose unused bits are set. -/
theorem witness_PixelReadResult : Memory.wf Pixw.standard [(0x0FAD, 0xFC)] = true := by decide

theorem witness_StepKeepsEncoding :
    State.launch { State.reset with inputs := [inp false true true] } ∧
    ({ State.reset with inputs := [inp false true true] } : State).sampled.hostWrites = [] ∧
    (stepWith (inp false true true) State.reset).isSome = true :=
  ⟨⟨⟨rfl, rfl, rfl, rfl, rfl, rfl⟩, rfl, rfl⟩, rfl, by decide⟩

/-- Two states whose entry 0 is 7 and 3. -/
theorem witness_MaskingLaw_states :
    State.AgreeLow { st .shift 0 0 0 false with pix := [(0, 7)], inputs := [inp false false true] }
      { st .shift 0 0 0 false with pix := [(0, 3)], inputs := [inp false false true] } ∧
    Memory.wf Pixw.standard [(0, 7)] = true ∧ Memory.wf Pixw.standard [(0, 3)] = true := by
  refine ⟨⟨rfl, rfl, rfl, rfl, rfl, rfl, rfl, rfl, fun a _ => ?_⟩, by decide, by decide⟩
  simp only [Memory.read]
  split <;> rfl

/-- A machine with PIXW = 3 whose entry 0 is 7 and one with PIXW = 2 whose entry 0 is 3. -/
theorem witness_EntryWidthIsIrrelevant_states :
    State.AgreeLow
      { st .shift 0 0 0 false with pixw := { unused := 1 }, pix := [(0, 7)] }
      { st .shift 0 0 0 false with pixw := { unused := 0 }, pix := [(0, 3)] } ∧
    Memory.wf { unused := 1 } [(0, 7)] = true ∧ Memory.wf { unused := 0 } [(0, 3)] = true := by
  refine ⟨⟨rfl, rfl, rfl, rfl, rfl, rfl, rfl, rfl, fun a _ => ?_⟩, by decide, by decide⟩
  simp only [Memory.read]
  split <;> rfl

/-- The premises of the statements about a whole invocation, under any PIX. -/
theorem witness_InvocationEncodesBuffer : State.reset.phase = .idle ∧
    (readySched 0).start = true ∧ undisturbed State.reset readySched ∧ sinkFair readySched ∧
    sinkTakes State.reset readySched :=
  ⟨rfl, rfl, fun _ _ => ⟨rfl, fun _ => rfl⟩, fun n => ⟨n, le_rfl, rfl⟩,
    fun m _ _ _ _ => ⟨m, le_rfl, rfl⟩⟩

theorem witness_InvocationAccessOrder : State.reset.phase = .idle ∧
    (readySched 0).start = true ∧ undisturbed State.reset readySched ∧ sinkFair readySched ∧
    sinkTakes State.reset readySched :=
  witness_InvocationEncodesBuffer

theorem witness_ReadySinkStepCount : State.reset.phase = .idle ∧ (readySched 0).start = true ∧
    undisturbed State.reset readySched ∧ ∀ n < 36865, (readySched n).outReady = true :=
  ⟨rfl, rfl, fun _ _ => ⟨rfl, fun _ => rfl⟩, fun _ _ => rfl⟩

theorem witness_UnreadySinkHoldsBlock : (st .emit 0x0038 0xAA 0x0F false).phase = .emit ∧
    ∀ k < 3, ((fun _ : Nat => inp false true false) k).rst = false ∧
      ((fun _ : Nat => inp false true false) k).outReady = false :=
  ⟨rfl, fun _ _ => ⟨rfl, rfl⟩⟩

theorem witness_BackToBackInvocations : (st .emit 0x7FF8 0 0x99 false).phase = .emit ∧
    posIdx (st .emit 0x7FF8 0 0x99 false).pos = 0xFFF ∧ (inp false true true).rst = false ∧
    (inp false true true).outReady = true ∧ (inp false true true).start = true := by decide

/-- Entry 0 is read and written in the same step's sample, and entry 1 is written when 0 is read. -/
theorem witness_HostWriteSeenByLaterRead :
    (stepWith { inp false false false with hostWrites := [{ addr := 0, value := 2 }] }
      { st .shift 0 0 0 false with pix := [(0, 1)] }).map five =
        some ⟨.shift, 1, 0, 1, false, []⟩ ∧
    (stepWith { inp false false false with hostWrites := [{ addr := 1, value := 2 }] }
      { st .shift 0 0 0 false with pix := [(0, 1)] }).map five =
        some ⟨.shift, 1, 1, 0, false, []⟩ ∧
    Memory.wf Pixw.standard [(0, 1)] = true := by decide

theorem witness_ByteLaw : ([1, 0, 1, 1, 0, 1, 1] : List (BitVec 1)).length < 8 := by decide

theorem witness_EightPacksOverwrite :
    8 ≤ ([1, 0, 1, 1, 0, 1, 1, 0] : List (BitVec 1)).length := by decide

/-- The integers 7 and 3, as entries of 3 and of 2 bits. -/
theorem witness_EntryWidthIsIrrelevant : (7 : Nat) % 4 = 3 % 4 ∧
    Pixw.entry { unused := 1 } 7 = 7 ∧ Pixw.entry { unused := 0 } 7 = 3 := by decide

/-- Buffers of 7 everywhere and of 3 everywhere. -/
theorem witness_MaskingLaw_buffers : ∀ x < 128, ∀ y < 128,
    (fun _ _ : Nat => 7) x y &&& 3 = (fun _ _ : Nat => 3) x y &&& 3 :=
  fun _ _ _ _ => (by decide : (7 : Nat) &&& 3 = 3 &&& 3)

theorem witness_EncodeLength : 128 % 8 = 0 ∧ 8 % 8 = 0 := by decide

theorem witness_StreamContent : (0 : Nat) < 16 ∧ (15 : Nat) < 16 ∧ (1 : Nat) < 2 ∧ (7 : Nat) < 8 ∧
    4095 < 16 * 16 * 16 := by decide

theorem witness_RoundTripOfStream : (127 : Nat) < 128 := by decide

end Sys2Proof.Tests
end

section
/-! The operation a step performs. The selector bits of a control word choose a row of kind step,
and `pos` gives its operands, so the decoder answers `operationOf` on every word a state forms
(40_bitplane_encoder.md rule R70, 30_encoding.md rules R57, R58). -/

namespace Sys2Proof.Machine

/-- The five selector bits `{rst, start, out_ready, ph}` (30_encoding.md rule R58). -/
def selectorBits (rst start outReady : Bool) (phase : Phase) : BitVec 5 :=
  BitVec.ofBool rst ++ BitVec.ofBool start ++ BitVec.ofBool outReady ++ phaseCode phase

/-- The row of kind step that the sampled levels and the phase select (40_bitplane_encoder.md
rule R70). -/
def selectedRow (rst start outReady : Bool) : Phase → Mnemonic
  | .idle => if rst then .reset else if start then .start else .idle
  | .shift => if rst then .reset else .shift
  | .emit => if rst then .reset else if outReady then .emit else .stall

theorem controlWord_eq_selectorBits_append (i : Inputs) (phase : Phase) (pos : Pos) :
    controlWord i phase pos = selectorBits i.rst i.start i.outReady phase ++ pos := rfl

/-- No phase has the code 11. -/
theorem selectorBits_phase_ne_three (rst start outReady : Bool) (phase : Phase) :
    (selectorBits rst start outReady phase).extractLsb' 0 2 ≠ 3 := by
  cases phase <;> revert rst start outReady <;> decide

theorem stepRowHi_selectorBits (rst start outReady : Bool) (phase : Phase) :
    stepRowHi (selectorBits rst start outReady phase) =
      some (selectedRow rst start outReady phase) := by
  cases phase <;> revert rst start outReady <;> decide

/-- The selected row with the fields of `pos` as its operands is the operation of rule R70. -/
theorem operandsOf_selectedRow (i : Inputs) (phase : Phase) (hi : BitVec 5) (pos : Pos) :
    operandsOf (selectedRow i.rst i.start i.outReady phase) (hi ++ pos) =
      operationOf i phase pos := by
  have fields : cwTyi (hi ++ pos) = posTyi pos ∧ cwTxi (hi ++ pos) = posTxi pos ∧
      cwPlane (hi ++ pos) = posPlane pos ∧ cwRow (hi ++ pos) = posRow pos ∧
      cwCol (hi ++ pos) = posCol pos := by
    simp [cwTyi_eq, cwTxi_eq, cwPlane_eq, cwRow_eq, cwCol_eq]
  obtain ⟨tyi, txi, plane, row, col⟩ := fields
  cases hr : i.rst with
  | true => cases phase <;> simp [selectedRow, operationOf, operandsOf, hr]
  | false =>
    cases phase with
    | idle => cases hs : i.start <;> simp [selectedRow, operationOf, operandsOf, hr, hs]
    | shift => simp [selectedRow, operationOf, operandsOf, hr, tyi, txi, plane, row, col]
    | emit =>
      cases ho : i.outReady <;>
        simp [selectedRow, operationOf, operandsOf, hr, ho, tyi, txi, plane, row]

/-- The decoder on a control word formed from inputs, phase and `pos`. -/
theorem decode_controlWord (i : Inputs) (phase : Phase) (pos : Pos) :
    decode (controlWord i phase pos) = .ok (operationOf i phase pos) := by
  rw [controlWord_eq_selectorBits_append, decode_append,
    if_neg (selectorBits_phase_ne_three _ _ _ _), stepRowHi_selectorBits]
  exact congrArg Except.ok (operandsOf_selectedRow i phase _ pos)

theorem decode_fetchWord (s : State) :
    decode s.fetchWord = .ok (operationOf s.sampled s.phase s.pos) :=
  decode_controlWord s.sampled s.phase s.pos

/-- A step performs the operation of rule R70 on the sampled state. -/
theorem step_eq_exec_operationOf (s : State) :
    step s = settleOutcome (exec (operationOf s.sampled s.phase s.pos) s.sample) := by
  unfold step
  rw [decode_fetchWord]

theorem State.operation_eq (s : State) :
    s.operation = some (operationOf s.sampled s.phase s.pos) := by
  unfold State.operation
  rw [decode_fetchWord]

/-- A step performs an operation of kind step, never a component by itself. -/
theorem operationOf_kind (i : Inputs) (phase : Phase) (pos : Pos) :
    (operationOf i phase pos).kind = .step := by
  unfold operationOf
  repeat' split
  all_goals rfl

/-! What every operation and every step does: it answers a next state (60_exceptions.md rule R140),
and PIX is the host's (10_state.md rule R10). -/

theorem exec_next (i : Instr) (s : State) : ∃ t, exec i s = .next t := by
  cases i <;> exact ⟨_, rfl⟩

theorem step_next (s : State) : ∃ t, step s = .next t := by
  obtain ⟨u, hu⟩ := exec_next (operationOf s.sampled s.phase s.pos) s.sample
  exact ⟨u.settle, by rw [step_eq_exec_operationOf, hu, settleOutcome_next]⟩

/-- No operation writes PIX or the entry width. -/
theorem exec_pixw_pix {i : Instr} {s t : State} (h : exec i s = .next t) :
    t.pixw = s.pixw ∧ t.pix = s.pix := by
  cases i <;> cases h <;> simp

/-- A step keeps the canonical form of PIX, whatever the host writes. -/
theorem step_wf {s t : State} (h : step s = .next t) (hs : Memory.wf s.pixw s.pix = true) :
    Memory.wf t.pixw t.pix = true := by
  obtain ⟨i, u, -, hu, rfl⟩ := step_next_cases h
  obtain ⟨hpixw, hpix⟩ := exec_pixw_pix hu
  rw [State.settle_pixw, State.settle_pix, hpixw, hpix]
  exact Memory.hostWrites_wf _ _ hs

theorem operations_succ_of_step {s t : State} (h : step s = .next t) (n : Nat) :
    operations (n + 1) s = operationOf s.sampled s.phase s.pos :: operations n t := by
  rw [operations, State.operation_eq, h]

end Sys2Proof.Machine
end

section
/-! The two low bits of an entry are all that the machine sees (00_scope.md rule R6,
42_bit_extractor.md rule R101): states that agree in them stay in agreement under the host's writes,
under every step operation and so along every run. -/

namespace Sys2Proof.Machine

/-- BITX looks at the two low bits only (42_bit_extractor.md rule R101). -/
theorem bitsOf_mod_four (p : Nat) : bitsOf (p % 4) = bitsOf p := by
  have bit : ∀ k < 2, entryBit (p % 4) k = entryBit p k := by
    intro k hk
    apply BitVec.eq_of_toNat_eq
    rw [entryBit_toNat, entryBit_toNat]
    interval_cases k <;> omega
  unfold bitsOf
  rw [bit 0 (by decide), bit 1 (by decide)]

theorem bitsOf_eq_of_mod_four_eq {p q : Nat} (h : p % 4 = q % 4) : bitsOf p = bitsOf q := by
  rw [← bitsOf_mod_four p, h, bitsOf_mod_four]

theorem and_three_eq_mod_four (p : Nat) : p &&& 3 = p % 4 := Nat.and_two_pow_sub_one_eq_mod p 2

/-- The two low bits of each entry of two buffers agree. -/
def Memory.AgreeLow (m k : Memory) : Prop :=
  ∀ a < 2 ^ 14, Memory.read m a &&& 3 = Memory.read k a &&& 3

/-- One write of the host keeps agreement: each entry keeps the two low bits of the value, and PIXW
cuts off others. -/
theorem Memory.AgreeLow.hostWrite {v w : Pixw} {m k : Memory} (h : Memory.AgreeLow m k)
    (hm : Memory.wf v m = true) (hk : Memory.wf w k = true) (x : HostWrite) :
    Memory.AgreeLow (Memory.hostWrite v m x) (Memory.hostWrite w k x) := by
  intro a ha
  rw [Memory.read_hostWrite hm, Memory.read_hostWrite hk]
  split
  · rw [and_three_eq_mod_four, and_three_eq_mod_four, Pixw.entry_mod_four, Pixw.entry_mod_four]
  · exact h a ha

theorem Memory.AgreeLow.hostWrites {v w : Pixw} (hs : List HostWrite) :
    ∀ {m k : Memory}, Memory.AgreeLow m k → Memory.wf v m = true → Memory.wf w k = true →
      Memory.AgreeLow (Memory.hostWrites v m hs) (Memory.hostWrites w k hs) := by
  induction hs with
  | nil => exact fun h _ _ => h
  | cons x hs ih =>
    exact fun h hm hk =>
      ih (h.hostWrite hm hk x) (Memory.hostWrite_wf hm x) (Memory.hostWrite_wf hk x)

section
variable {s t : State}

theorem State.AgreeLow.sampled (h : s.AgreeLow t) : s.sampled = t.sampled := by
  unfold State.sampled
  rw [h.inputs, h.tick]

theorem State.AgreeLow.acc (h : s.AgreeLow t) (p : Plane) : s.acc p = t.acc p := by
  unfold State.acc
  rw [h.acc0, h.acc1]

/-- Agreeing states show the same on every port. -/
theorem State.AgreeLow.outputs (h : s.AgreeLow t) : s.outputs = t.outputs := by
  unfold State.outputs State.busy State.pxAddrPort State.outDataPort
  rw [h.phase, h.pos, h.done, h.acc]

theorem State.AgreeLow.operationOf_eq (h : s.AgreeLow t) :
    operationOf s.sampled s.phase s.pos = operationOf t.sampled t.phase t.pos := by
  rw [h.sampled, h.phase, h.pos]

theorem State.AgreeLow.sample (h : s.AgreeLow t) (hs : Memory.wf s.pixw s.pix = true)
    (ht : Memory.wf t.pixw t.pix = true) : s.sample.AgreeLow t.sample where
  phase := h.phase
  pos := h.pos
  acc0 := h.acc0
  acc1 := h.acc1
  done := h.done
  stream := h.stream
  inputs := congrArg List.tail h.inputs
  tick := congrArg (· + 1) h.tick
  pix := by
    rw [State.sample_pix, State.sample_pix, h.sampled]
    exact Memory.AgreeLow.hostWrites _ h.pix hs ht

/-- Agreement does not look at the nets. -/
theorem State.AgreeLow.settle (h : s.AgreeLow t) : s.settle.AgreeLow t.settle := { h with }

theorem State.AgreeLow.selectByte (h : s.AgreeLow t) (p : Plane) :
    (s.selectByte p).AgreeLow (t.selectByte p) := { h with }

/-- RESET and START write the same values over whatever was there. -/
theorem State.AgreeLow.clearRun_setPhase (h : s.AgreeLow t) (p : Phase) :
    (s.clearRun.setPhase p).AgreeLow (t.clearRun.setPhase p) :=
  ⟨rfl, rfl, rfl, rfl, rfl, rfl, h.inputs, h.tick, h.pix⟩

/-- The two plane bits of the entry at an address are the same in both. -/
theorem State.AgreeLow.bitsOf_memRead (h : s.AgreeLow t) (a : PixAddr) :
    bitsOf (s.memRead a) = bitsOf (t.memRead a) := by
  have low := h.pix a.toNat a.isLt
  rw [and_three_eq_mod_four, and_three_eq_mod_four] at low
  exact bitsOf_eq_of_mod_four_eq low

/-- The pixel part of SHIFT: it alone reads PIX, and it packs the two plane bits of the entry. -/
theorem State.AgreeLow.packPixel (h : s.AgreeLow t) (a : PixAddr) :
    ((s.driveAddr a).readPixel a).extractBits.packBits.AgreeLow
      ((t.driveAddr a).readPixel a).extractBits.packBits :=
  { h with
    acc0 := congrArg₂ packBit h.acc0 (congrArg Prod.fst (h.bitsOf_memRead a))
    acc1 := congrArg₂ packBit h.acc1 (congrArg Prod.snd (h.bitsOf_memRead a)) }

theorem State.AgreeLow.countPixel (h : s.AgreeLow t) (col : Offset3) :
    (s.countPixel col).AgreeLow (t.countPixel col) := by
  rw [State.countPixel_eq, State.countPixel_eq, h.phase, h.pos]
  exact { h with phase := rfl, pos := rfl }

/-- The transfer of EMIT: the byte is the accumulator of the pass, the same in both. -/
theorem State.AgreeLow.transferSelected (h : s.AgreeLow t) (p : Plane) (n : Idx) :
    ((s.selectByte p).transfer n).AgreeLow ((t.selectByte p).transfer n) :=
  { h with stream := congrArg₂ (fun bytes byte => bytes ++ [byte]) h.stream (h.acc p) }

theorem State.AgreeLow.clearAccs (h : s.AgreeLow t) : s.clearAccs.AgreeLow t.clearAccs :=
  { h with acc0 := rfl, acc1 := rfl }

theorem State.AgreeLow.nextByte (h : s.AgreeLow t) (n : Idx) :
    (s.nextByte n).AgreeLow (t.nextByte n) := by
  rw [State.nextByte_eq, State.nextByte_eq, h.done]
  exact { h with phase := rfl, pos := rfl, done := rfl }

/-- Every step operation keeps agreement. The components PACK and XFER by themselves need not: they
take their values from the nets, which agreement does not look at. -/
theorem State.AgreeLow.of_exec {u v : State} {i : Instr} (h : s.AgreeLow t) (hi : i.kind = .step)
    (hu : exec i s = .next u) (hv : exec i t = .next v) : u.AgreeLow v := by
  cases i with
  | reset => cases hu; cases hv; exact h.clearRun_setPhase .idle
  | idle => cases hu; cases hv; exact h
  | start => cases hu; cases hv; exact h.clearRun_setPhase .shift
  | shift => cases hu; cases hv; exact (h.packPixel _).countPixel _
  | emit => cases hu; cases hv; exact (h.transferSelected _ _).clearAccs.nextByte _
  | stall => cases hu; cases hv; exact h.selectByte _
  | pxaddr | pxread | bitx | pack | clear | sel | xfer | advance | finish => cases hi

/-- One step of two agreeing machines, of any two widths, keeps agreement. -/
theorem State.AgreeLow.of_step {u v : State} (h : s.AgreeLow t)
    (hs : Memory.wf s.pixw s.pix = true) (ht : Memory.wf t.pixw t.pix = true)
    (hu : step s = .next u) (hv : step t = .next v) : u.AgreeLow v := by
  obtain ⟨i, u', hi, hu', rfl⟩ := step_next_cases hu
  obtain ⟨j, v', hj, hv', rfl⟩ := step_next_cases hv
  rw [decode_fetchWord] at hi hj
  cases hi
  cases hj
  rw [← h.operationOf_eq] at hv'
  exact ((h.sample hs ht).of_exec (operationOf_kind _ _ _) hu' hv').settle

/-- Two agreeing machines, of any two widths, perform the same operations and agree after every
number of steps. -/
theorem State.AgreeLow.run (n : Nat) : ∀ {s t : State}, s.AgreeLow t →
    Memory.wf s.pixw s.pix = true → Memory.wf t.pixw t.pix = true →
    ∃ u v, Host.Core.run core n s = .next u ∧ Host.Core.run core n t = .next v ∧
      operations n s = operations n t ∧ u.AgreeLow v := by
  induction n with
  | zero => exact fun {s t} h _ _ => ⟨s, t, run_zero s, run_zero t, rfl, h⟩
  | succ n ih =>
    intro s t h hs ht
    obtain ⟨s', hs'⟩ := step_next s
    obtain ⟨t', ht'⟩ := step_next t
    obtain ⟨u, v, hu, hv, hops, huv⟩ :=
      ih (h.of_step hs ht hs' ht') (step_wf hs' hs) (step_wf ht' ht)
    refine ⟨u, v, (run_succ_of_step hs' n).trans hu, (run_succ_of_step ht' n).trans hv, ?_, huv⟩
    rw [operations_succ_of_step hs', operations_succ_of_step ht', h.operationOf_eq, hops]

end

/-- Settles O46: the two low bits of every entry determine the plane bits, which are all that a step
takes from PIX, so agreement in them is kept along a run, and the ports show nothing else. -/
theorem entryWidthIsIrrelevant : Obligations.EntryWidthIsIrrelevant := by
  refine ⟨Pixw.two_le_bits, rfl, fun v w a b hab => ?_, fun n s t h hs ht => ?_⟩
  · apply bitsOf_eq_of_mod_four_eq
    rw [Pixw.entry_mod_four, Pixw.entry_mod_four, hab]
  · obtain ⟨u, v, hu, hv, hops, huv⟩ := h.run n hs ht
    exact ⟨u, v, hu, hv, hops, huv, huv.outputs⟩

end Sys2Proof.Machine
end

section
/-! What a step can do, case by case: the one operation of 40_bitplane_encoder.md rule R70 that the
sampled levels and the phase select, and the state it leaves. -/

namespace Sys2Proof.Machine

/-- The six outcomes of a step from `s`, with their guards (40_bitplane_encoder.md rules R70 to
R76). -/
inductive StepResult (s : State) : State → Prop where
  | reset (hrst : s.sampled.rst = true) :
    StepResult s (s.sample.clearRun.setPhase .idle).settle
  | start (hrst : s.sampled.rst = false) (hphase : s.phase = .idle)
      (hstart : s.sampled.start = true) :
    StepResult s (s.sample.clearRun.setPhase .shift).settle
  | idle (hrst : s.sampled.rst = false) (hphase : s.phase = .idle)
      (hstart : s.sampled.start = false) :
    StepResult s s.sample.settle
  | shift (hrst : s.sampled.rst = false) (hphase : s.phase = .shift) :
    StepResult s ((((s.sample.driveAddr s.pxAddrPort).readPixel s.pxAddrPort).extractBits.packBits
      ).countPixel (posCol s.pos)).settle
  | emit (hrst : s.sampled.rst = false) (hphase : s.phase = .emit)
      (hready : s.sampled.outReady = true) :
    StepResult s ((((s.sample.selectByte (posPlane s.pos)).transfer (posIdx s.pos)).clearAccs
      ).nextByte (posIdx s.pos)).settle
  | stall (hrst : s.sampled.rst = false) (hphase : s.phase = .emit)
      (hready : s.sampled.outReady = false) :
    StepResult s (s.sample.selectByte (posPlane s.pos)).settle

theorem step_of_operationOf {s u : State} {i : Instr}
    (hi : operationOf s.sampled s.phase s.pos = i) (hu : exec i s.sample = .next u) :
    step s = .next u.settle := by
  rw [step_eq_exec_operationOf, hi, hu, settleOutcome_next]

theorem StepResult.step_eq {s t : State} (h : StepResult s t) : step s = .next t := by
  cases h with
  | reset hrst => exact step_of_operationOf (i := .reset) (by simp [operationOf, hrst]) rfl
  | start hrst hphase hstart =>
    exact step_of_operationOf (i := .start) (by simp [operationOf, hrst, hphase, hstart]) rfl
  | idle hrst hphase hstart =>
    exact step_of_operationOf (i := .idle) (by simp [operationOf, hrst, hphase, hstart]) rfl
  | shift hrst hphase =>
    exact step_of_operationOf
      (i := .shift (posTyi s.pos) (posTxi s.pos) (posPlane s.pos) (posRow s.pos) (posCol s.pos))
      (by simp [operationOf, hrst, hphase]) rfl
  | emit hrst hphase hready =>
    rw [← idxOf_fields]
    exact step_of_operationOf
      (i := .emit (posTyi s.pos) (posTxi s.pos) (posPlane s.pos) (posRow s.pos))
      (by simp [operationOf, hrst, hphase, hready]) rfl
  | stall hrst hphase hready =>
    exact step_of_operationOf (i := .stall (posPlane s.pos))
      (by simp [operationOf, hrst, hphase, hready]) rfl

/-- The guards leave no state and no inputs out. -/
theorem exists_stepResult (s : State) : ∃ t, StepResult s t := by
  cases hrst : s.sampled.rst with
  | true => exact ⟨_, .reset hrst⟩
  | false =>
    cases hphase : s.phase with
    | idle =>
      cases hstart : s.sampled.start with
      | true => exact ⟨_, .start hrst hphase hstart⟩
      | false => exact ⟨_, .idle hrst hphase hstart⟩
    | shift => exact ⟨_, .shift hrst hphase⟩
    | emit =>
      cases hready : s.sampled.outReady with
      | true => exact ⟨_, .emit hrst hphase hready⟩
      | false => exact ⟨_, .stall hrst hphase hready⟩

theorem step_next_iff_stepResult {s t : State} : step s = .next t ↔ StepResult s t := by
  refine ⟨fun h => ?_, StepResult.step_eq⟩
  obtain ⟨u, hu⟩ := exists_stepResult s
  have same : Host.Outcome.next u = .next t := hu.step_eq.symm.trans h
  cases same
  exact hu

end Sys2Proof.Machine
end

section
/-! What a step does not look at: the inputs it does not sample (10_state.md rule R19), and the flag
`done` (rule R16). -/

namespace Sys2Proof.Machine

/-- `start` selects the operation only in phase IDLE and `out_ready` only in phase EMIT, and neither
does under reset. -/
theorem operationOf_congr {i j : Inputs} {phase : Phase} (hrst : i.rst = j.rst)
    (hstart : i.rst = false → phase = .idle → i.start = j.start)
    (hready : i.rst = false → phase = .emit → i.outReady = j.outReady) (pos : Pos) :
    operationOf i phase pos = operationOf j phase pos := by
  unfold operationOf
  rw [← hrst]
  cases hr : i.rst with
  | true => rfl
  | false =>
    cases phase with
    | idle => rw [hstart hr rfl]; rfl
    | shift => rfl
    | emit => rw [hready hr rfl]; rfl

/-- Without a SHIFT step the entries of PIX go only into the next PIX. -/
theorem StepResult.with_pix {s t : State} (h : StepResult s t)
    (hread : s.sampled.rst = true ∨ s.phase ≠ .shift) (m : Memory) :
    StepResult { s with pix := m }
      { t with pix := Memory.hostWrites s.pixw m s.sampled.hostWrites } := by
  cases h with
  | reset hrst => exact .reset hrst
  | start hrst hphase hstart => exact .start hrst hphase hstart
  | idle hrst hphase hstart => exact .idle hrst hphase hstart
  | shift hrst hphase =>
    rcases hread with hreset | hother
    · rw [hrst] at hreset; cases hreset
    · exact absurd hphase hother
  | emit hrst hphase hready =>
    have next := StepResult.emit (s := { s with pix := m }) hrst hphase hready
    rw [State.nextByte_eq] at next ⊢
    exact next
  | stall hrst hphase hready => exact .stall hrst hphase hready

/-- The old `done` goes only into the new `done`. -/
theorem StepResult.with_done {s t : State} (h : StepResult s t) (b : Bool) :
    ∃ u, StepResult { s with done := b } u ∧ { u with done := t.done } = t := by
  cases h with
  | reset hrst => exact ⟨_, .reset hrst, rfl⟩
  | start hrst hphase hstart => exact ⟨_, .start hrst hphase hstart, rfl⟩
  | idle hrst hphase hstart => exact ⟨_, .idle hrst hphase hstart, rfl⟩
  | shift hrst hphase =>
    refine ⟨_, .shift hrst hphase, ?_⟩
    rw [State.countPixel_eq, State.countPixel_eq]
    rfl
  | emit hrst hphase hready =>
    refine ⟨_, .emit hrst hphase hready, ?_⟩
    rw [State.nextByte_eq, State.nextByte_eq]
    rfl
  | stall hrst hphase hready => exact ⟨_, .stall hrst hphase hready, rfl⟩

/-- Settles O11: the inputs enter a step through the operation they select and through the host's
writes, and the entries of PIX enter it through SHIFT alone. -/
theorem unsampledInputsIgnored : Obligations.UnsampledInputsIgnored := by
  refine ⟨fun s i j rest hrst hwrites hstart hready => ?_, fun s t u m hread ht hu => ?_⟩
  · have operation : operationOf i s.phase s.pos = operationOf j s.phase s.pos :=
      operationOf_congr hrst hstart hready s.pos
    have sampled : ({ s with inputs := i :: rest } : State).sample =
        ({ s with inputs := j :: rest } : State).sample := by
      simp [State.sample, State.sampled, hwrites]
    rw [step_eq_exec_operationOf, step_eq_exec_operationOf, sampled]
    exact congrArg (fun op => settleOutcome (exec op _)) operation
  · have result := ((step_next_iff_stepResult.mp ht).with_pix hread m).step_eq
    rw [hu] at result
    cases result
    rfl

/-- Settles O13: the value of `done` after each of the six outcomes of a step. -/
theorem doneFlagRule : Obligations.DoneFlagRule := by
  intro s t h
  have result := step_next_iff_stepResult.mp h
  refine ⟨?_, rfl, fun b => ?_⟩
  · cases result with
    | reset hrst => simp [hrst]
    | start hrst hphase hstart => simp [hrst, hphase, hstart]
    | idle hrst hphase hstart => simp [hrst, hphase, hstart]
    | shift hrst hphase => simp [hrst, hphase]
    | emit hrst hphase hready => simp [hrst, hphase, hready]
    | stall hrst hphase hready => simp [hrst, hphase, hready]
  · obtain ⟨u, hu, same⟩ := result.with_done b
    exact ⟨u, hu.step_eq, same⟩

end Sys2Proof.Machine
end

section
/-! The invariants of reachable states (10_state.md rule R25): each outcome of a step keeps them. -/

namespace Sys2Proof.Machine

section
variable {s t : State}

/-- At the reset values all of (a) to (e) hold. -/
theorem State.blockReset.inv (h : s.blockReset) : s.Inv := by
  obtain ⟨hphase, hpos, hacc0, hacc1, hdone, hstream⟩ := h
  constructor <;> simp [hphase, hpos, hacc0, hacc1, hdone, hstream]

/-- RESET leaves the reset values. -/
theorem blockReset_of_reset (s : State) : (s.sample.clearRun.setPhase .idle).settle.blockReset :=
  ⟨rfl, rfl, rfl, rfl, rfl, rfl⟩

/-- After START no bit has been shifted in and no byte transferred. -/
theorem inv_of_start (s : State) : (s.sample.clearRun.setPhase .shift).settle.Inv := by
  constructor <;> simp [posIdx]

theorem State.Inv.done_eq_false (h : s.Inv) (hphase : s.phase ≠ .idle) : s.done = false :=
  Bool.eq_false_iff.mpr fun hdone => hphase (h.doneIdle hdone)

/-- PACK moves the bits up by one, so one more bit of the accumulator may be set. -/
theorem packBit_getLsbD_eq_false {A : Byte} {k : Nat} (b : BitVec 1)
    (h : ∀ j, k ≤ j → A.getLsbD j = false) {j : Nat} (hj : k + 1 ≤ j) :
    (packBit A b).getLsbD j = false := by
  rw [packBit_getLsbD, if_neg (by omega), h (j - 1) (by omega), Bool.and_false]

theorem toNat_add_one_of_ne_seven {col : Offset3} (h : col ≠ 7) :
    (col + 1).toNat = col.toNat + 1 := by
  revert col
  decide

theorem State.countPixel_seven (s : State) :
    s.countPixel 7 = (s.setPhase .emit).setPos (posSetCol s.pos 0) := rfl

theorem State.countPixel_of_ne {c : Offset3} (h : c ≠ 7) (s : State) :
    s.countPixel c = s.setPos (posSetCol s.pos (c + 1)) := by
  rw [State.countPixel, if_neg h]

theorem State.nextByte_last (s : State) : s.nextByte 0xFFF = s.finishRun := rfl

theorem State.nextByte_of_ne {n : Idx} (h : n ≠ 0xFFF) (s : State) :
    s.nextByte n = s.advanceTo n := if_neg h

/-- SHIFT: after the last column the byte is offered with `col` at 0, before it the accumulators
hold one bit more and `col` is one higher. -/
theorem State.Inv.of_shift (h : s.Inv) (hphase : s.phase = .shift) (a : PixAddr) :
    ((((s.sample.driveAddr a).readPixel a).extractBits.packBits).countPixel
      (posCol s.pos)).settle.Inv := by
  have done := h.done_eq_false (by simp [hphase])
  have length := h.busyLength (.inl hphase)
  by_cases hcol : posCol s.pos = 7
  · rw [hcol, State.countPixel_seven]
    constructor <;> simp [done, length]
  · rw [State.countPixel_of_ne hcol]
    constructor
    case shiftAcc =>
      have cleared := h.shiftAcc hphase
      intro _ j hj
      rw [State.settle_pos, State.setPos_pos, posCol_posSetCol,
        toNat_add_one_of_ne_seven hcol] at hj
      exact ⟨packBit_getLsbD_eq_false _ (fun k hk => (cleared k hk).1) hj,
        packBit_getLsbD_eq_false _ (fun k hk => (cleared k hk).2) hj⟩
    all_goals simp [hphase, done, length]

/-- EMIT: the stream has one byte more; it is whole after byte 0xFFF, else `idx` is one higher. -/
theorem State.Inv.of_emit (h : s.Inv) (hphase : s.phase = .emit) (p : Plane) :
    ((((s.sample.selectByte p).transfer (posIdx s.pos)).clearAccs).nextByte
      (posIdx s.pos)).settle.Inv := by
  have done := h.done_eq_false (by simp [hphase])
  have length := h.busyLength (.inr hphase)
  by_cases hlast : posIdx s.pos = 0xFFF
  · have whole : s.stream.length = 4095 := by rw [length, hlast]; rfl
    rw [hlast, State.nextByte_last]
    constructor <;> simp [whole]
  · have room : (posIdx s.pos).toNat + 1 < 4096 := by bv_omega
    rw [State.nextByte_of_ne hlast]
    constructor <;> simp [done, length, Nat.mod_eq_of_lt room]

/-- Every outcome of a step keeps (a) to (e). -/
theorem State.Inv.of_stepResult (h : s.Inv) (ht : StepResult s t) : t.Inv := by
  cases ht with
  | reset => exact (blockReset_of_reset s).inv
  | start => exact inv_of_start s
  | idle => exact { h with }
  | shift _ hphase => exact h.of_shift hphase _
  | emit _ hphase => exact h.of_emit hphase _
  | stall => exact { h with }

/-- (a) to (e) hold in every reachable state: at launch the block is reset, and steps keep them. -/
theorem Reachable.inv (h : Reachable s) : s.Inv := by
  induction h with
  | launch s hs => exact hs.1.inv
  | step s t _ ht ih => exact ih.of_stepResult (step_next_iff_stepResult.mp ht)

/-- A byte none of whose bits from `k` on is set is below `2 ^ k`. -/
theorem toNat_lt_two_pow_of_getLsbD {A : Byte} {k : Nat} (h : ∀ j, k ≤ j → A.getLsbD j = false) :
    A.toNat < 2 ^ k :=
  Nat.lt_pow_two_of_testBit _ h

end

/-- Settles O31: the invariants hold along every run, and (c) bounds the accumulators as numbers. -/
theorem reachableStatesKeepInvariants : Obligations.ReachableStatesKeepInvariants := by
  intro s h
  have inv := h.inv
  refine ⟨inv.idleClear, inv.emitCol, fun hphase => ?_, inv.doneIdle, fun hphase => ?_,
    inv.idleLength, inv.doneIff⟩
  · have cleared := inv.shiftAcc hphase
    exact ⟨toNat_lt_two_pow_of_getLsbD fun j hj => (cleared j hj).1,
      toNat_lt_two_pow_of_getLsbD fun j hj => (cleared j hj).2⟩
  · apply inv.busyLength
    cases hp : s.phase with
    | idle => exact absurd hp hphase
    | shift => exact .inl rfl
    | emit => exact .inr rfl

end Sys2Proof.Machine
end

section
/-! What the concatenations of 30_encoding.md rule R55 keep of `pos`: `px_addr` carries every field
but `plane`, and setting the plane bit forgets exactly that field. -/

namespace Sys2Proof.Machine

theorem xOf_toNat (txi : TileIndex) (col : Offset3) :
    (xOf txi col).toNat = 8 * txi.toNat + col.toNat := by
  rw [xOf, toNat_append_eq, Nat.mul_comm]; rfl

theorem yOf_toNat (tyi : TileIndex) (row : Offset3) :
    (yOf tyi row).toNat = 8 * tyi.toNat + row.toNat := by
  rw [yOf, toNat_append_eq, Nat.mul_comm]; rfl

/-- `px_addr` carries each of its four fields. -/
theorem pxAddrOf_inj_iff {tyi txi tyi' txi' : TileIndex} {row col row' col' : Offset3} :
    pxAddrOf tyi txi row col = pxAddrOf tyi' txi' row' col' ↔
      tyi = tyi' ∧ txi = txi' ∧ row = row' ∧ col = col' := by
  constructor
  · intro h
    have sum := congrArg BitVec.toNat h
    rw [pxAddrOf_toNat, pxAddrOf_toNat] at sum
    refine ⟨?_, ?_, ?_, ?_⟩ <;> apply BitVec.eq_of_toNat_eq <;> omega
  · rintro ⟨rfl, rfl, rfl, rfl⟩
    rfl

/-- The fields determine `pos`. -/
theorem pos_ext {p q : Pos} (htyi : posTyi p = posTyi q) (htxi : posTxi p = posTxi q)
    (hplane : posPlane p = posPlane q) (hrow : posRow p = posRow q)
    (hcol : posCol p = posCol q) : p = q := by
  rw [← posOf_fields p, htyi, htxi, hplane, hrow, hcol, posOf_fields]

/-! Bit 6 of `pos` is the field `plane` (10_state.md rule R12). -/

@[simp] theorem posTyi_or_planeBit (p : Pos) : posTyi (p ||| 64#15) = posTyi p :=
  BitVec.extractLsb'_or.trans BitVec.or_zero

@[simp] theorem posTxi_or_planeBit (p : Pos) : posTxi (p ||| 64#15) = posTxi p :=
  BitVec.extractLsb'_or.trans BitVec.or_zero

@[simp] theorem posRow_or_planeBit (p : Pos) : posRow (p ||| 64#15) = posRow p :=
  BitVec.extractLsb'_or.trans BitVec.or_zero

@[simp] theorem posCol_or_planeBit (p : Pos) : posCol (p ||| 64#15) = posCol p :=
  BitVec.extractLsb'_or.trans BitVec.or_zero

@[simp] theorem posPlane_or_planeBit (p : Pos) : posPlane (p ||| 64#15) = 1 :=
  BitVec.extractLsb'_or.trans BitVec.or_allOnes

/-- Setting the plane bit forgets `plane` and nothing else. -/
theorem or_planeBit_inj_iff {p q : Pos} :
    p ||| 64 = q ||| 64 ↔
      posTyi p = posTyi q ∧ posTxi p = posTxi q ∧ posRow p = posRow q ∧ posCol p = posCol q := by
  constructor
  · intro h
    exact ⟨by simpa using congrArg posTyi h, by simpa using congrArg posTxi h,
      by simpa using congrArg posRow h, by simpa using congrArg posCol h⟩
  · rintro ⟨htyi, htxi, hrow, hcol⟩
    apply pos_ext <;> simp [htyi, htxi, hrow, hcol]

/-- Settles O41: the concatenations as numbers, and both sides of the last clause say that every
field but `plane` agrees. -/
theorem operandAssembly : Obligations.OperandAssembly := by
  refine ⟨fun p => ⟨xOf_toNat _ _, yOf_toNat _ _, ?_, idxOf_fields p, ?_, ?_⟩, fun p q => ?_⟩
  · rw [pxAddrOf_toNat, Nat.mul_comm]
  · rw [← xOf_toNat]; exact (xOf _ _).isLt
  · rw [← yOf_toNat]; exact (yOf _ _).isLt
  · exact pxAddrOf_inj_iff.trans or_planeBit_inj_iff.symm

end Sys2Proof.Machine
end

section
/-! The stream read back bit by bit (30_encoding.md rule R63): bit `7 - c` of the byte of a plane and
a tile row is that plane's bit of column `c`. -/

namespace Sys2Proof.Machine

theorem bitP_eq (p v : Nat) : bitP p v = v / 2 ^ p % 2 := by
  rw [bitP, Nat.and_one_is_mod, Nat.shiftRight_eq_div_pow]

/-- A number that takes in one bit at the bottom per turn, the bit of turn `c` in turn `c`: after
`n` turns that bit has moved up `n - 1 - c` times. -/
theorem bitP_of_shiftIn {byte bit : Nat → Nat}
    (turn : ∀ k, byte (k + 1) = 2 * byte k + bit k % 2) {c n : Nat} (hc : c < n) :
    bitP (n - 1 - c) (byte n) = bit c % 2 := by
  obtain ⟨d, rfl⟩ := Nat.exists_eq_add_of_lt hc
  rw [Nat.add_sub_cancel, Nat.add_sub_cancel_left, bitP_eq]
  clear hc
  induction d with
  | zero => rw [Nat.add_zero, turn]; omega
  | succ d ih =>
    have moved : byte (c + (d + 1) + 1) / 2 = byte (c + d + 1) := by
      rw [turn, ← Nat.add_assoc]; omega
    rw [Nat.pow_succ', ← Nat.div_div_eq_div_mul, moved, ih]

/-- The leftmost pixel of a row is in the top bit of its plane bytes, the rightmost in the bottom
bit (30_encoding.md rule R51). -/
theorem bitP_rowByte (buffer : Nat → Nat → Nat) (tx y : Nat) {p c : Nat} (hp : p < 2)
    (hc : c < 8) : bitP (7 - c) (rowByte buffer tx y p) = bitP p (buffer (tx + c) y) := by
  have turn := fun k => (rowBytes_succ buffer tx y k).trans (rowStep_eq ..)
  rw [bitP_eq p]
  rcases (by omega : p = 0 ∨ p = 1) with rfl | rfl
  · rw [pow_zero, Nat.div_one]
    exact bitP_of_shiftIn (byte := fun k => (rowBytes buffer tx y k).1)
      (fun k => congrArg Prod.fst (turn k)) hc
  · rw [pow_one]
    exact bitP_of_shiftIn (byte := fun k => (rowBytes buffer tx y k).2)
      (fun k => congrArg Prod.snd (turn k)) hc

/-- The byte of the stream at the offset of a tile, a plane and a row (20_memory.md rule R35). -/
theorem encodeBuffer_getD_streamOffset (buffer : Nat → Nat → Nat) {wt ht tyi txi p r : Nat}
    (htyi : tyi < ht) (htxi : txi < wt) (hp : p < 2) (hr : r < 8) :
    (encodeBuffer buffer (8 * wt) (8 * ht)).getD (streamOffset wt tyi txi p r) 0 =
      rowByte buffer (8 * txi) (8 * tyi + r) p := by
  have tileOf : streamOffset wt tyi txi p r / 16 = wt * tyi + txi := by
    rw [streamOffset, Nat.mul_comm wt]; omega
  have planeOf : streamOffset wt tyi txi p r / 8 % 2 = p := by unfold streamOffset; omega
  have rowOf : streamOffset wt tyi txi p r % 8 = r := by unfold streamOffset; omega
  have txiOf : (wt * tyi + txi) % wt = txi := by rw [Nat.mul_add_mod, Nat.mod_eq_of_lt htxi]
  have tyiOf : (wt * tyi + txi) / wt = tyi := by
    rw [Nat.mul_add_div (by omega), Nat.div_eq_of_lt htxi, Nat.add_zero]
  have inStream : streamOffset wt tyi txi p r < ht * (wt * 16) := by
    have tiles : wt * tyi + wt ≤ wt * ht := Nat.mul_le_mul_left wt htyi
    have size : ht * (wt * 16) = wt * ht * 16 := by ring
    omega
  rw [encodeBuffer_eq_map, List.getD_eq_getElem _ _ (by simpa using inStream), List.getElem_map,
    List.getElem_range, tileOf, planeOf, rowOf, txiOf, tyiOf]

/-- The inverse mapping takes the two plane bits of a pixel from the bytes of its row. -/
theorem decodePixel_eq (S : List Nat) (x y : Nat) :
    decodePixel S x y =
      2 * bitP (7 - x % 8) (S.getD (streamOffset 16 (y / 8) (x / 8) 1 (y % 8)) 0) +
        bitP (7 - x % 8) (S.getD (streamOffset 16 (y / 8) (x / 8) 0 (y % 8)) 0) := by
  have low : ∀ v, v &&& 7 = v % 8 := fun v => Nat.and_two_pow_sub_one_eq_mod v 3
  have high : ∀ v, v >>> 3 = v / 8 := fun v => Nat.shiftRight_eq_div_pow v 3
  have plane0 : (y / 8 * 16 + x / 8) * 16 + y % 8 = streamOffset 16 (y / 8) (x / 8) 0 (y % 8) := by
    unfold streamOffset; omega
  have plane1 : streamOffset 16 (y / 8) (x / 8) 0 (y % 8) + 8 =
      streamOffset 16 (y / 8) (x / 8) 1 (y % 8) := by
    unfold streamOffset; omega
  have join : ∀ v w k, bitP k v <<< 1 ||| bitP k w = 2 * bitP k v + bitP k w := by
    intro v w k
    rw [← Nat.shiftLeft_add_eq_or_of_lt (by rw [bitP_eq]; omega), Nat.shiftLeft_eq]; omega
  rw [← join, decodePixel, low, low, high, high, plane0, plane1]
  rfl

/-- Settles O49: the inverse mapping looks where the encoder put the two plane bits of the pixel, and
they are the two low bits of its entry. -/
theorem roundTripOfStream : Obligations.RoundTripOfStream := by
  intro buffer x hx y hy
  have hc : x % 8 < 8 := Nat.mod_lt _ (by decide)
  have read : ∀ p < 2, bitP (7 - x % 8)
      ((encodeBuffer buffer 128 128).getD (streamOffset 16 (y / 8) (x / 8) p (y % 8)) 0) =
        bitP p (buffer x y) := by
    intro p hp
    have byte := encodeBuffer_getD_streamOffset buffer (wt := 16) (ht := 16)
      (tyi := y / 8) (txi := x / 8) (p := p) (r := y % 8)
      (by omega) (by omega) hp (by omega)
    rw [Nat.div_add_mod] at byte
    rw [byte, bitP_rowByte _ _ _ hp hc, Nat.div_add_mod]
  rw [decodePixel_eq, read 1 (by decide), read 0 (by decide), bitP_eq, bitP_eq,
    and_three_eq_mod_four]
  omega

end Sys2Proof.Machine
end

section
/-! The bytes transferred and the byte being built are those of `encode(PIX)`
(40_bitplane_encoder.md rules R77, R78): START begins them, a SHIFT step is one turn of the `col`
loop, and an EMIT step adds the byte of its offset. -/

namespace Sys2Proof.Machine

/-! Counting a pixel leaves the upper fields of `pos` alone (10_state.md rule R12). -/

@[simp] theorem posTyi_posSetCol (p : Pos) (c : Offset3) : posTyi (posSetCol p c) = posTyi p := by
  apply BitVec.eq_of_toNat_eq
  rw [posTyi_toNat, posTyi_toNat, posSetCol_toNat]
  omega

@[simp] theorem posTxi_posSetCol (p : Pos) (c : Offset3) : posTxi (posSetCol p c) = posTxi p := by
  apply BitVec.eq_of_toNat_eq
  rw [posTxi_toNat, posTxi_toNat, posSetCol_toNat]
  omega

@[simp] theorem posRow_posSetCol (p : Pos) (c : Offset3) : posRow (posSetCol p c) = posRow p := by
  apply BitVec.eq_of_toNat_eq
  rw [posRow_toNat, posRow_toNat, posSetCol_toNat]
  omega

/-- PACK drops no bit from an accumulator whose bits from 7 on are 0. -/
theorem packBit_toNat_of_lt {A : Byte} (h : A.toNat < 2 ^ 7) (b : BitVec 1) :
    (packBit A b).toNat = 2 * A.toNat + b.toNat := by
  rw [packBit_toNat, Nat.mod_eq_of_lt (by omega)]

/-- The entry at `px_addr` is the pixel at column `col` of the row being built
(30_encoding.md rule R55). -/
theorem State.memRead_pxAddrPort (s : State) :
    s.memRead s.pxAddrPort = bufferOf s.pix (8 * (posTxi s.pos).toNat + (posCol s.pos).toNat)
      (8 * (posTyi s.pos).toNat + (posRow s.pos).toNat) := by
  rw [State.memRead, State.pxAddrPort, pxAddrOf_toNat]
  rfl

/-- The byte of `encode` at the offset `idx` of a position. -/
theorem encodeBuffer_getElem?_posIdx (buffer : Nat → Nat → Nat) (p : Pos) :
    (encodeBuffer buffer 128 128)[(posIdx p).toNat]? =
      some (rowByte buffer (8 * (posTxi p).toNat)
        (8 * (posTyi p).toNat + (posRow p).toNat) (posPlane p).toNat) := by
  have inStream : (posIdx p).toNat < 16 * (16 * 16) := (posIdx p).isLt
  have tyi : (posIdx p).toNat / 16 / 16 = (posTyi p).toNat := by
    rw [posIdx_toNat, posTyi_toNat]; omega
  have txi : (posIdx p).toNat / 16 % 16 = (posTxi p).toNat := by
    rw [posIdx_toNat, posTxi_toNat]; omega
  have plane : (posIdx p).toNat / 8 % 2 = (posPlane p).toNat := by
    rw [posIdx_toNat, posPlane_toNat]; omega
  have row : (posIdx p).toNat % 8 = (posRow p).toNat := by rw [posIdx_toNat, posRow_toNat]
  rw [encodeBuffer_eq_map buffer 16 16, List.getElem?_map, List.getElem?_range inStream,
    Option.map_some, tyi, txi, plane, row]

/-- The number of bytes of `encode` (40_bitplane_encoder.md rule R79). -/
theorem encodeBuffer_length (buffer : Nat → Nat → Nat) :
    (encodeBuffer buffer 128 128).length = 4096 := by
  rw [encodeBuffer_eq_map buffer 16 16, List.length_map, List.length_range]

section
variable {s t : State}

theorem State.sample_of_no_writes (hwrites : s.sampled.hostWrites = []) :
    s.sample = { s with inputs := s.inputs.tail, tick := s.tick + 1 } := by
  rw [State.sample, hwrites, Memory.hostWrites_nil]

/-- After START no byte is transferred and no turn of the `col` loop made. -/
theorem encoding_of_start (s : State) : (s.sample.clearRun.setPhase .shift).settle.Encoding where
  inv := inv_of_start s
  bytes := rfl
  accs := fun _ => rfl

/-- RESET drops the history and leaves no byte being built. -/
theorem encoding_of_reset (s : State) : (s.sample.clearRun.setPhase .idle).settle.Encoding where
  inv := (blockReset_of_reset s).inv
  bytes := rfl
  accs := fun hbusy => absurd rfl hbusy

/-- Each accumulator after SHIFT is its value after one more turn of the `col` loop. -/
theorem State.Encoding.accs_of_shift (h : s.Encoding) (hphase : s.phase = .shift) :
    ((packBit s.acc0 (bitsOf (s.memRead s.pxAddrPort)).1).toNat,
      (packBit s.acc1 (bitsOf (s.memRead s.pxAddrPort)).2).toNat) =
      rowBytes (bufferOf s.pix) (8 * (posTxi s.pos).toNat)
        (8 * (posTyi s.pos).toNat + (posRow s.pos).toNat) ((posCol s.pos).toNat + 1) := by
  have accs := h.accs (by simp [hphase])
  rw [if_neg (by simp [hphase])] at accs
  have cleared : ∀ j, 7 ≤ j → s.acc0.getLsbD j = false ∧ s.acc1.getLsbD j = false :=
    fun j hj => h.inv.shiftAcc hphase j (by omega)
  have bits (p : Nat) : (bitsOf p).1.toNat = p % 2 ∧ (bitsOf p).2.toNat = p / 2 % 2 := by
    simp [bitsOf, entryBit_toNat]
  rw [packBit_toNat_of_lt (toNat_lt_two_pow_of_getLsbD fun j hj => (cleared j hj).1),
    packBit_toNat_of_lt (toNat_lt_two_pow_of_getLsbD fun j hj => (cleared j hj).2),
    (bits _).1, (bits _).2, rowBytes_succ, rowStep_eq, ← accs, s.memRead_pxAddrPort]

theorem State.Encoding.of_shift (h : s.Encoding) (hphase : s.phase = .shift)
    (hwrites : s.sampled.hostWrites = []) :
    ((((s.sample.driveAddr s.pxAddrPort).readPixel s.pxAddrPort).extractBits.packBits).countPixel
      (posCol s.pos)).settle.Encoding where
  inv := h.inv.of_shift hphase _
  bytes := by
    rw [State.sample_of_no_writes hwrites]
    simpa using h.bytes
  accs := fun _ => by
    have turned := h.accs_of_shift hphase
    rw [State.sample_of_no_writes hwrites]
    by_cases hcol : posCol s.pos = 7
    · rw [hcol] at turned ⊢
      rw [State.countPixel_seven]
      simpa [State.memRead] using turned
    · rw [← toNat_add_one_of_ne_seven hcol] at turned
      rw [State.countPixel_of_ne hcol]
      simpa [hphase, State.memRead] using turned

/-- The byte offered in phase EMIT is the byte of `encode` at its offset. -/
theorem State.Encoding.outDataPort_toNat (h : s.Encoding) (hphase : s.phase = .emit) :
    s.outDataPort.toNat = rowByte (bufferOf s.pix) (8 * (posTxi s.pos).toNat)
      (8 * (posTyi s.pos).toNat + (posRow s.pos).toNat) (posPlane s.pos).toNat := by
  have accs := h.accs (by simp [hphase])
  rw [if_pos hphase] at accs
  rw [State.outDataPort, rowByte, ← accs]
  rcases plane_cases (posPlane s.pos) with hplane | hplane <;> rw [hplane] <;> rfl

/-- The history with the offered byte is one byte more of `encode(PIX)`. -/
theorem State.Encoding.bytes_of_emit (h : s.Encoding) (hphase : s.phase = .emit) :
    (s.stream ++ [s.outDataPort]).map BitVec.toNat =
      (encodeBuffer (bufferOf s.pix) 128 128).take (s.stream ++ [s.outDataPort]).length := by
  rw [List.length_append, List.length_singleton, List.map_append, h.bytes, List.take_add_one,
    h.inv.busyLength (.inr hphase), encodeBuffer_getElem?_posIdx, ← h.outDataPort_toNat hphase]
  rfl

theorem State.Encoding.of_emit (h : s.Encoding) (hphase : s.phase = .emit)
    (hwrites : s.sampled.hostWrites = []) :
    ((((s.sample.selectByte (posPlane s.pos)).transfer (posIdx s.pos)).clearAccs).nextByte
      (posIdx s.pos)).settle.Encoding where
  inv := h.inv.of_emit hphase _
  bytes := by
    rw [State.sample_of_no_writes hwrites, State.settle_stream, State.nextByte_stream,
      State.settle_pix, State.nextByte_pix]
    exact h.bytes_of_emit hphase
  accs := fun hbusy => by
    by_cases hlast : posIdx s.pos = 0xFFF
    · rw [hlast, State.nextByte_last] at hbusy
      exact absurd rfl hbusy
    · rw [State.nextByte_of_ne hlast]
      simp [rowBytes]

/-- A step without host writes keeps the history and the accumulators at `encode(PIX)`. -/
theorem State.Encoding.of_stepResult (h : s.Encoding) (hwrites : s.sampled.hostWrites = [])
    (ht : StepResult s t) : t.Encoding := by
  have inv := h.inv.of_stepResult ht
  cases ht with
  | reset => exact encoding_of_reset s
  | start => exact encoding_of_start s
  | shift _ hphase => exact h.of_shift hphase hwrites
  | emit _ hphase => exact h.of_emit hphase hwrites
  | idle | stall =>
    rw [State.sample_of_no_writes hwrites] at inv ⊢
    exact { h with inv := inv }

/-- A step leaves in PIX what the host's writes of its sample made of it. -/
theorem StepResult.pix_eq (h : StepResult s t) :
    t.pix = Memory.hostWrites s.pixw s.pix s.sampled.hostWrites := by
  cases h <;> simp

end

end Sys2Proof.Machine
end

section
/-! The states a schedule of inputs leads through and the operations performed on the way, without the
queue of samples: a run on any number of queued samples is read off them. -/

namespace Sys2Proof.Machine

/-- The state after one step under the sample `i`, with no sample left in the queue. -/
def State.next (s : State) (i : Inputs) : State :=
  match step { s with inputs := [i] } with
  | .next t => t
  | .fault _ => s
  | .refused _ => s

theorem next_eq_of_stepResult {s t : State} {i : Inputs}
    (h : StepResult { s with inputs := [i] } t) : s.next i = t := by
  rw [State.next, h.step_eq]

theorem stepResult_next (s : State) (i : Inputs) :
    StepResult { s with inputs := [i] } (s.next i) := by
  obtain ⟨t, ht⟩ := exists_stepResult { s with inputs := [i] }
  rwa [next_eq_of_stepResult ht]

/-- The samples queued behind the sampled one go only into the next queue. -/
theorem StepResult.with_queue {s t : State} {i : Inputs}
    (h : StepResult { s with inputs := [i] } t) (rest : List Inputs) :
    StepResult { s with inputs := i :: rest } { t with inputs := rest } := by
  cases h with
  | reset hrst => exact .reset hrst
  | start hrst hphase hstart => exact .start hrst hphase hstart
  | idle hrst hphase hstart => exact .idle hrst hphase hstart
  | shift hrst hphase =>
    have next := StepResult.shift (s := { s with inputs := i :: rest }) hrst hphase
    rw [State.countPixel_eq] at next ⊢
    exact next
  | emit hrst hphase hready =>
    have next := StepResult.emit (s := { s with inputs := i :: rest }) hrst hphase hready
    rw [State.nextByte_eq] at next ⊢
    exact next
  | stall hrst hphase hready => exact .stall hrst hphase hready

section
variable (s : State) (sched : Nat → Inputs)

/-- The state after `k` steps of a schedule. -/
def State.visited : Nat → State
  | 0 => s
  | k + 1 => (State.visited k).next (sched k)

/-- The row of the operation that step `k` of a schedule performs. -/
def State.performed (k : Nat) : Mnemonic :=
  (operationOf (sched k) (s.visited sched k).phase (s.visited sched k).pos).mnemonic

theorem visited_step (k : Nat) :
    StepResult { s.visited sched k with inputs := [sched k] } (s.visited sched (k + 1)) :=
  stepResult_next _ _

/-- One step takes the first sample of what is left of the schedule from the queue. -/
theorem step_scheduled (k n : Nat) :
    step ((s.visited sched k).scheduled (fun j => sched (k + j)) (n + 1)) =
      .next ((s.visited sched (k + 1)).scheduled (fun j => sched (k + 1 + j)) n) := by
  have queue : (List.range (n + 1)).map (fun j => sched (k + j)) =
      sched k :: (List.range n).map fun j => sched (k + 1 + j) := by
    simp [List.range_succ_eq_map, Function.comp_def, Nat.add_assoc, Nat.add_comm 1]
  rw [State.scheduled, queue]
  exact ((visited_step s sched k).with_queue _).step_eq

theorem run_visited (m n : Nat) : ∀ k,
    Host.Core.run core m ((s.visited sched k).scheduled (fun j => sched (k + j)) (m + n)) =
      .next ((s.visited sched (k + m)).scheduled (fun j => sched (k + m + j)) n) := by
  induction m with
  | zero => intro k; rw [run_zero, Nat.zero_add, Nat.add_zero]
  | succ m ih =>
    intro k
    rw [Nat.succ_add, run_succ_of_step (step_scheduled s sched k (m + n)), ih (k + 1),
      Nat.succ_add_eq_add_succ k m]

theorem operations_visited (m n : Nat) : ∀ k,
    (operations m ((s.visited sched k).scheduled (fun j => sched (k + j)) (m + n))).map
      Instr.mnemonic = (List.range m).map fun j => s.performed sched (k + j) := by
  induction m with
  | zero => intro k; rfl
  | succ m ih =>
    intro k
    rw [Nat.succ_add, operations_succ_of_step (step_scheduled s sched k (m + n)), List.map_cons,
      ih (k + 1), scheduled_sampled, List.range_succ_eq_map, List.map_cons, List.map_map]
    simp [State.performed, Function.comp_def, Nat.add_assoc, Nat.add_comm 1]

/-- A run on `n` queued samples of a schedule, `m` steps on. -/
theorem run_scheduled {m n : Nat} (h : m ≤ n) : ∃ queue,
    Host.Core.run core m (s.scheduled sched n) =
      .next { s.visited sched m with inputs := queue } := by
  obtain ⟨d, rfl⟩ := Nat.exists_eq_add_of_le h
  have run := run_visited s sched m d 0
  simp only [Nat.zero_add] at run
  exact ⟨_, run⟩

/-- The rows of the operations of such a run. -/
theorem operations_scheduled {m n : Nat} (h : m ≤ n) :
    (operations m (s.scheduled sched n)).map Instr.mnemonic =
      (List.range m).map (s.performed sched) := by
  obtain ⟨d, rfl⟩ := Nat.exists_eq_add_of_le h
  have rows := operations_visited s sched m d 0
  simp only [Nat.zero_add] at rows
  exact rows

theorem busy_eq_true_iff (s : State) : s.busy = true ↔ s.phase ≠ .idle := by
  simp [State.busy]

/-- The invocation has not ended up to step `m`. -/
theorem running_iff (m : Nat) :
    s.running sched m ↔ ∀ k, 1 ≤ k → k ≤ m → (s.visited sched k).phase ≠ .idle := by
  constructor
  · intro h k hk hkm
    obtain ⟨queue, run⟩ := run_scheduled s sched (le_refl k)
    have busy := h k _ hk hkm run
    exact (busy_eq_true_iff _).mp busy
  · intro h k u hk hkm hu
    obtain ⟨queue, run⟩ := run_scheduled s sched (le_refl k)
    rw [hu] at run
    cases run
    exact (busy_eq_true_iff _).mpr (h k hk hkm)

end

end Sys2Proof.Machine
end

section
/-! An invocation (40_bitplane_encoder.md rule R77): what its steps have done, that it ends under a fair
sink, and that `encode(PIX)` is then transferred. -/

namespace Sys2Proof.Machine

/-- The turns of the `col` loop made of the byte being built or offered. -/
def State.turns (s : State) : Nat :=
  match s.phase with
  | .idle => 0
  | .shift => (posCol s.pos).toNat
  | .emit => 8

/-- The pixels shifted in since START: eight for each byte transferred, and the turns made of the
next one. -/
def State.pixels (s : State) : Nat := 8 * s.stream.length + s.turns

@[simp] theorem State.settle_turns (s : State) : s.settle.turns = s.turns := rfl

theorem State.turns_le (s : State) : s.turns ≤ 8 := by
  unfold State.turns
  split <;> omega

theorem turns_of_idle {s : State} (h : s.phase = .idle) : s.turns = 0 := by rw [State.turns, h]

theorem turns_of_shift {s : State} (h : s.phase = .shift) : s.turns = (posCol s.pos).toNat := by
  rw [State.turns, h]

theorem turns_of_emit {s : State} (h : s.phase = .emit) : s.turns = 8 := by rw [State.turns, h]

/-- What a step of a busy block without reset does to the counts of pixels and bytes, by the level of
`out_ready` and the row of its operation. -/
inductive BusyStep (ready : Bool) (s t : State) : Mnemonic → Prop where
  | shift (hpixels : t.pixels = s.pixels + 1) (hlength : t.stream.length = s.stream.length)
      (hbusy : t.phase ≠ .idle) : BusyStep ready s t .shift
  | emit (hpixels : t.pixels = s.pixels) (hlength : t.stream.length = s.stream.length + 1) :
    BusyStep ready s t .emit
  | stall (hpixels : t.pixels = s.pixels) (hlength : t.stream.length = s.stream.length)
      (hphase : t.phase = .emit) (hready : ready = false) : BusyStep ready s t .stall

section
variable {ready : Bool} {s t : State}

/-- Counting a pixel is one turn more, in phase SHIFT and from it into EMIT. -/
theorem turns_countPixel {c : Offset3} (hphase : s.phase = .shift) (hcol : posCol s.pos = c) :
    (s.countPixel c).turns = s.turns + 1 := by
  rw [turns_of_shift hphase, hcol]
  by_cases hlast : c = 7
  · rw [hlast, State.countPixel_seven]
    rfl
  · rw [State.countPixel_of_ne hlast, turns_of_shift (by exact hphase), State.setPos_pos,
      posCol_posSetCol, toNat_add_one_of_ne_seven hlast]

/-- No turn is made of the byte after the one transferred. -/
theorem turns_nextByte (s : State) (n : Idx) : (s.nextByte n).turns = 0 := by
  by_cases hlast : n = 0xFFF
  · rw [hlast, State.nextByte_last]
    rfl
  · rw [State.nextByte_of_ne hlast, turns_of_shift rfl, State.advanceTo_pos, posCol_posOfIdx]
    rfl

theorem busyStep_shift (hphase : s.phase = .shift) (a : PixAddr) :
    BusyStep ready s ((((s.sample.driveAddr a).readPixel a).extractBits.packBits).countPixel
      (posCol s.pos)).settle .shift := by
  have turned := turns_countPixel (c := posCol s.pos)
    (s := ((s.sample.driveAddr a).readPixel a).extractBits.packBits) hphase rfl
  have before : (((s.sample.driveAddr a).readPixel a).extractBits.packBits).turns = s.turns := rfl
  refine .shift ?_ (by simp) ?_
  · simp [State.pixels, turned, before, Nat.add_assoc]
  · rw [State.settle_phase, State.countPixel_phase]
    split <;> simp [hphase]

theorem busyStep_emit (hphase : s.phase = .emit) (p : Plane) (n : Idx) :
    BusyStep ready s ((((s.sample.selectByte p).transfer n).clearAccs).nextByte n).settle
      .emit := by
  refine .emit ?_ (by simp)
  simp [State.pixels, turns_nextByte, turns_of_emit hphase, Nat.mul_add]

theorem StepResult.busyStep (h : StepResult s t) (hrst : s.sampled.rst = false)
    (hbusy : s.phase ≠ .idle) :
    BusyStep s.sampled.outReady s t (operationOf s.sampled s.phase s.pos).mnemonic := by
  cases h with
  | reset hreset => rw [hrst] at hreset; cases hreset
  | start _ hphase | idle _ hphase => exact absurd hphase hbusy
  | shift _ hphase =>
    have row : (operationOf s.sampled s.phase s.pos).mnemonic = .shift := by
      simp [operationOf, hrst, hphase, Instr.mnemonic]
    exact row ▸ busyStep_shift hphase _
  | emit _ hphase hready =>
    have row : (operationOf s.sampled s.phase s.pos).mnemonic = .emit := by
      simp [operationOf, hrst, hphase, hready, Instr.mnemonic]
    exact row ▸ busyStep_emit hphase _ _
  | stall _ hphase hready =>
    have row : (operationOf s.sampled s.phase s.pos).mnemonic = .stall := by
      simp [operationOf, hrst, hphase, hready, Instr.mnemonic]
    exact row ▸ .stall rfl rfl hphase hready

/-- The queued samples are not counted. -/
theorem BusyStep.of_queue {queue : List Inputs} {m : Mnemonic}
    (h : BusyStep ready { s with inputs := queue } t m) : BusyStep ready s t m := by
  cases h with
  | shift hpixels hlength hbusy => exact .shift hpixels hlength hbusy
  | emit hpixels hlength => exact .emit hpixels hlength
  | stall hpixels hlength hphase hready => exact .stall hpixels hlength hphase hready

/-- A step of a busy block performs one SHIFT, EMIT or STALL; a SHIFT is one pixel more, an EMIT one
byte more. -/
theorem BusyStep.counts {m : Mnemonic} (h : BusyStep ready s t m) :
    [m].count .start = 0 ∧ t.pixels = s.pixels + [m].count .shift ∧
      t.stream.length = s.stream.length + [m].count .emit ∧
      [m].count .shift + [m].count .emit + [m].count .stall = 1 := by
  cases h with
  | shift hpixels hlength => exact ⟨rfl, hpixels, hlength, rfl⟩
  | emit hpixels hlength => exact ⟨rfl, hpixels, hlength, rfl⟩
  | stall hpixels hlength => exact ⟨rfl, hpixels, hlength, rfl⟩

/-- What an invocation that never ended would do without end. -/
def State.work (s : State) : Nat := s.pixels + s.stream.length

/-- Only a STALL step makes no headway. -/
theorem BusyStep.work {m : Mnemonic} (h : BusyStep ready s t m) :
    s.work < t.work ∨ t.work = s.work ∧ t.phase = .emit ∧ ready = false := by
  unfold State.work
  cases h with
  | shift hpixels hlength => left; omega
  | emit hpixels hlength => left; omega
  | stall hpixels hlength hphase hready => right; exact ⟨by omega, hphase, hready⟩

/-- Only an EMIT step ends an invocation. -/
theorem BusyStep.emit_of_idle {m : Mnemonic} (h : BusyStep ready s t m) (hidle : t.phase = .idle) :
    m = .emit ∧ t.stream.length ≠ 0 := by
  cases h with
  | shift _ _ hbusy => exact absurd hidle hbusy
  | emit _ hlength => exact ⟨rfl, by omega⟩
  | stall _ _ hphase => rw [hidle] at hphase; cases hphase

theorem State.Encoding.with_queue (h : s.Encoding) (queue : List Inputs) :
    State.Encoding { s with inputs := queue } :=
  { h with inv := { h.inv with } }

/-- What is so after the operations `ops` of an invocation that encodes the buffer `pix`. -/
structure Progress (pix : Memory) (ops : List Mnemonic) (t : State) : Prop where
  encoding : t.Encoding
  buffer : t.pix = pix
  starts : ops.count .start = 1
  shifts : ops.count .shift = t.pixels
  emits : ops.count .emit = t.stream.length
  total : ops.length = 1 + ops.count .shift + ops.count .emit + ops.count .stall

section
variable {pix : Memory} {ops : List Mnemonic}

theorem Progress.of_busyStep {m : Mnemonic} (h : Progress pix ops s) (ht : BusyStep ready s t m)
    (encoding : t.Encoding) (buffer : t.pix = pix) : Progress pix (ops ++ [m]) t := by
  obtain ⟨hstart, hshift, hemit, hone⟩ := ht.counts
  obtain ⟨-, -, starts, shifts, emits, total⟩ := h
  refine ⟨encoding, buffer, ?_, ?_, ?_, ?_⟩
  · rw [List.count_append, starts, hstart]
  · rw [List.count_append, shifts, hshift]
  · rw [List.count_append, emits, hemit]
  · simp only [List.length_append, List.length_singleton, List.count_append]
    omega

/-- A busy block has transferred fewer than 4096 bytes. -/
theorem State.Inv.length_lt (h : t.Inv) (hbusy : t.phase ≠ .idle) : t.stream.length < 4096 := by
  have building : t.phase = .shift ∨ t.phase = .emit := by
    cases hphase : t.phase with
    | idle => exact absurd hphase hbusy
    | shift => exact .inl rfl
    | emit => exact .inr rfl
  rw [h.busyLength building]
  exact (posIdx t.pos).isLt

/-- An idle block that has transferred a byte has transferred all of them. -/
theorem State.Inv.completed (h : t.Inv) (hidle : t.phase = .idle) (hsome : t.stream.length ≠ 0) :
    t.completed ∧ t.stream.length = 4096 := by
  have length := (h.idleLength hidle).resolve_left hsome
  obtain ⟨hpos, hacc0, hacc1⟩ := h.idleClear hidle
  exact ⟨⟨hidle, hpos, hacc0, hacc1, h.doneIff.mpr ⟨hidle, length⟩⟩, length⟩

/-- The operations of a whole invocation. -/
theorem Progress.counts (h : Progress pix ops t) (hidle : t.phase = .idle)
    (hwhole : t.stream.length = 4096) :
    ops.count .start = 1 ∧ ops.count .shift = 32768 ∧ ops.count .emit = 4096 ∧
      ops.length = 1 + 32768 + 4096 + ops.count .stall := by
  have shifts : ops.count .shift = 32768 := by
    rw [h.shifts, State.pixels, turns_of_idle hidle, hwhole]
  have emits : ops.count .emit = 4096 := h.emits.trans hwhole
  exact ⟨h.starts, shifts, emits, by rw [h.total, shifts, emits]⟩

/-- The bytes transferred by a whole invocation. -/
theorem Progress.bytes (h : Progress pix ops t) (hwhole : t.stream.length = 4096) :
    t.stream.map BitVec.toNat = encodeBuffer (bufferOf pix) 128 128 := by
  rw [h.encoding.bytes, h.buffer, hwhole, List.take_of_length_le (encodeBuffer_length _).le]

end
end

section
variable {s : State} {sched : Nat → Inputs}

/-- The START step is not reset. -/
theorem undisturbed.rst_zero (h : undisturbed s sched) : (sched 0).rst = false :=
  (h 0 fun k _ hk hk0 => by omega).1

theorem pixels_of_start (s : State) :
    (s.sample.clearRun.setPhase .shift).settle.pixels = 0 := rfl

theorem performed_zero (hidle : s.phase = .idle) (hstart : (sched 0).start = true)
    (hund : undisturbed s sched) : s.performed sched 0 = .start := by
  simp [State.performed, State.visited, operationOf, hidle, hstart, hund.rst_zero, Instr.mnemonic]

theorem visited_one (hidle : s.phase = .idle) (hstart : (sched 0).start = true)
    (hund : undisturbed s sched) : s.visited sched 1 =
      (({ s with inputs := [sched 0] } : State).sample.clearRun.setPhase .shift).settle :=
  next_eq_of_stepResult (.start hund.rst_zero hidle hstart)

/-- After the START step nothing is shifted in or transferred. -/
theorem progress_one (hidle : s.phase = .idle) (hstart : (sched 0).start = true)
    (hund : undisturbed s sched) :
    Progress (s.pixAtStart sched) ((List.range 1).map (s.performed sched))
      (s.visited sched 1) := by
  have ops : (List.range 1).map (s.performed sched) = [.start] :=
    congrArg (fun row => [row]) (performed_zero hidle hstart hund)
  rw [ops, visited_one hidle hstart hund]
  exact ⟨encoding_of_start _, rfl, rfl, (pixels_of_start _).symm, rfl, rfl⟩

/-- Up to the end of the invocation the block is not reset. -/
theorem visited_busyStep (hund : undisturbed s sched) {m : Nat} (hm : 1 ≤ m)
    (hrun : s.running sched m) :
    BusyStep (sched m).outReady (s.visited sched m) (s.visited sched (m + 1))
      (s.performed sched m) :=
  ((visited_step s sched m).busyStep (hund m hrun).1
    ((running_iff s sched m).mp hrun m hm le_rfl)).of_queue

theorem progress_visited (hidle : s.phase = .idle) (hstart : (sched 0).start = true)
    (hund : undisturbed s sched) {m : Nat} (hm : 1 ≤ m)
    (hbusy : ∀ k, 1 ≤ k → k < m → (s.visited sched k).phase ≠ .idle) :
    Progress (s.pixAtStart sched) ((List.range m).map (s.performed sched))
      (s.visited sched m) := by
  induction m, hm using Nat.le_induction with
  | base => exact progress_one hidle hstart hund
  | succ m hm ih =>
    have hrun : s.running sched m :=
      (running_iff s sched m).mpr fun k hk hkm => hbusy k hk (by omega)
    have progress := ih fun k hk hkm => hbusy k hk (by omega)
    have result := visited_step s sched m
    have hwrites : ({ s.visited sched m with inputs := [sched m] } : State).sampled.hostWrites =
        [] := (hund m hrun).2 hm
    rw [List.range_succ, List.map_append]
    refine progress.of_busyStep (visited_busyStep hund hm hrun)
      ((progress.encoding.with_queue _).of_stepResult hwrites result) ?_
    rw [result.pix_eq, hwrites, Memory.hostWrites_nil, progress.buffer]

section
variable (hund : undisturbed s sched) (hrun : ∀ m, s.running sched m)
include hund hrun

/-- A sink that is ready `d` steps later lets the block go on. -/
theorem work_lt_of_ready (d : Nat) : ∀ m, 1 ≤ m → (sched (m + d)).outReady = true →
    ∃ k, 1 ≤ k ∧ (s.visited sched m).work < (s.visited sched k).work := by
  induction d with
  | zero =>
    intro m hm hready
    rcases (visited_busyStep hund hm (hrun m)).work with more | ⟨-, -, hstall⟩
    · exact ⟨m + 1, by omega, more⟩
    · rw [Nat.add_zero, hstall] at hready
      cases hready
  | succ d ih =>
    intro m hm hready
    rcases (visited_busyStep hund hm (hrun m)).work with more | ⟨same, -, -⟩
    · exact ⟨m + 1, by omega, more⟩
    · rw [← same]
      exact ih (m + 1) (by omega) (by rwa [Nat.succ_add_eq_add_succ])

/-- A sink that takes every byte offered lets the block go on. -/
theorem work_lt_of_sinkTakes (hsink : sinkTakes s sched) {m : Nat} (hm : 1 ≤ m) :
    ∃ k, 1 ≤ k ∧ (s.visited sched m).work < (s.visited sched k).work := by
  rcases (visited_busyStep hund hm (hrun m)).work with more | ⟨same, hemit, -⟩
  · exact ⟨m + 1, by omega, more⟩
  · obtain ⟨queue, run⟩ := run_scheduled s sched (le_refl (m + 1))
    have offered : State.outputs { s.visited sched (m + 1) with inputs := queue } |>.outValid := by
      simp [State.outputs, hemit]
    obtain ⟨k, hk, hready⟩ := hsink (m + 1) _ (hrun _) run offered
    obtain ⟨d, rfl⟩ := Nat.exists_eq_add_of_le hk
    rw [← same]
    exact work_lt_of_ready hund hrun d (m + 1) (by omega) hready

end

/-- The invocation ends: its work is bounded, and a sink that takes every byte lets it grow. -/
theorem exists_idle (hidle : s.phase = .idle) (hstart : (sched 0).start = true)
    (hund : undisturbed s sched) (hsink : sinkTakes s sched) :
    ∃ n, 1 ≤ n ∧ (s.visited sched n).phase = .idle := by
  by_contra! hbusy
  have hrun (m : Nat) : s.running sched m := (running_iff s sched m).mpr fun k hk _ => hbusy k hk
  have unbounded (j : Nat) : ∃ k, 1 ≤ k ∧ j ≤ (s.visited sched k).work := by
    induction j with
    | zero => exact ⟨1, le_rfl, Nat.zero_le _⟩
    | succ j ih =>
      obtain ⟨m, hm, hj⟩ := ih
      obtain ⟨k, hk, more⟩ := work_lt_of_sinkTakes hund hrun hsink hm
      exact ⟨k, hk, by omega⟩
  obtain ⟨k, hk, large⟩ := unbounded (9 * 4096 + 8)
  have progress := progress_visited hidle hstart hund hk fun j hj _ => hbusy j hj
  have few := progress.encoding.inv.length_lt (hbusy k hk)
  have turns := (s.visited sched k).turns_le
  unfold State.work State.pixels at large
  omega

/-- The first step after which the block is idle again is the EMIT of the last byte. -/
theorem exists_last_emit (hidle : s.phase = .idle) (hstart : (sched 0).start = true)
    (hund : undisturbed s sched) (hsink : sinkTakes s sched) :
    ∃ l, 1 ≤ l ∧ (∀ k, 1 ≤ k → k < l + 1 → (s.visited sched k).phase ≠ .idle) ∧
      s.performed sched l = .emit ∧ (s.visited sched (l + 1)).completed ∧
      (s.visited sched (l + 1)).stream.length = 4096 := by
  obtain ⟨n, ⟨hn, hend⟩, hmin⟩ := Nat.findX (exists_idle hidle hstart hund hsink)
  have hbusy (k : Nat) (hk : 1 ≤ k) (hkn : k < n) : (s.visited sched k).phase ≠ .idle :=
    fun h => hmin k hkn ⟨hk, h⟩
  have hfirst : n ≠ 1 := by
    rintro rfl
    rw [visited_one hidle hstart hund] at hend
    cases hend
  obtain ⟨l, rfl⟩ := Nat.exists_eq_add_of_le' hn
  have hl : 1 ≤ l := by omega
  have hrun : s.running sched l :=
    (running_iff s sched l).mpr fun k hk hkl => hbusy k hk (by omega)
  obtain ⟨row, hsome⟩ := (visited_busyStep hund hl hrun).emit_of_idle hend
  exact ⟨l, hl, hbusy, row,
    (progress_visited hidle hstart hund hn hbusy).encoding.inv.completed hend hsome⟩

end

/-- A sink that is ready at infinitely many steps takes every byte offered. -/
theorem sinkFair.sinkTakes {sched : Nat → Inputs} (h : sinkFair sched) (s : State) :
    sinkTakes s sched :=
  fun m _ _ _ _ => h m

/-- Settles O35: the sink lets the invocation end, at the EMIT of its last byte, and after each of its
steps the counts of operations are those of the pixels and bytes, which are those of
`encode(PIX)`. -/
theorem invocationEncodesBuffer : Obligations.InvocationEncodesBuffer := by
  intro s sched hidle hstart hund hsinks
  have hsink : sinkTakes s sched := hsinks.elim (·.sinkTakes s) id
  obtain ⟨l, hl, hbusy, hlast, hcompleted, hwhole⟩ := exists_last_emit hidle hstart hund hsink
  have progress (m : Nat) (hm : 1 ≤ m) (hmn : m ≤ l + 1) :=
    progress_visited hidle hstart hund hm fun k hk hkm => hbusy k hk (by omega)
  have final := progress (l + 1) (by omega) le_rfl
  obtain ⟨queue, run⟩ := run_scheduled s sched (le_refl (l + 1))
  refine ⟨l + 1, _, run, hcompleted, final.bytes hwhole,
    fun a => congrArg (Memory.read · a) final.buffer, ?_, fun m hm hmn => ?_⟩
  · intro ops
    have rows : ops = (List.range (l + 1)).map (s.performed sched) :=
      operations_scheduled s sched le_rfl
    have length : ops.length = l + 1 := by simp [rows]
    have first : ops.head? = some .start := by
      rw [rows, List.range_succ_eq_map, List.map_cons, List.head?_cons,
        performed_zero hidle hstart hund]
    have last : ops.getLast? = some .emit := by
      rw [rows, List.range_succ, List.map_append, List.map_singleton, List.getLast?_concat, hlast]
    rw [← rows] at final
    obtain ⟨starts, shifts, emits, total⟩ := final.counts hcompleted.1 hwhole
    exact ⟨length, first, last, starts, shifts, emits, length ▸ total⟩
  · obtain ⟨queue, run⟩ := run_scheduled s sched hmn
    refine ⟨_, run, fun hlt => (busy_eq_true_iff _).mpr (hbusy m hm hlt), ?_⟩
    have now := progress m hm hmn
    rw [operations_scheduled s sched hmn, now.emits, ← now.buffer]
    exact now.encoding.bytes

end Sys2Proof.Machine
end

section
/-! The reference algorithm of 40_bitplane_encoder.md rule R78 takes the two low bits of an entry and
no more, so that buffers which agree in them have one stream (42_bit_extractor.md rule R101). -/

namespace Sys2Proof.Machine

section
variable {b c : Nat → Nat → Nat} {tx y : Nat}

/-- A turn of the `col` loop takes in bit 0 and bit 1 of its entry. -/
theorem rowStep_eq_of_low {col : Nat} (low : b (tx + col) y &&& 3 = c (tx + col) y &&& 3)
    (bytes : Nat × Nat) : rowStep b tx y bytes col = rowStep c tx y bytes col := by
  rw [and_three_eq_mod_four, and_three_eq_mod_four] at low
  have bit0 : b (tx + col) y % 2 = c (tx + col) y % 2 := by omega
  have bit1 : b (tx + col) y / 2 % 2 = c (tx + col) y / 2 % 2 := by omega
  rw [rowStep_eq, rowStep_eq, bit0, bit1]

theorem rowBytes_eq_of_low {k : Nat}
    (low : ∀ col < k, b (tx + col) y &&& 3 = c (tx + col) y &&& 3) :
    rowBytes b tx y k = rowBytes c tx y k := by
  induction k with
  | zero => rfl
  | succ k ih =>
    rw [rowBytes_succ, rowBytes_succ, ih fun col hcol => low col (by omega),
      rowStep_eq_of_low (low k (by omega))]

theorem rowByte_eq_of_low (low : ∀ col < 8, b (tx + col) y &&& 3 = c (tx + col) y &&& 3)
    (p : Nat) : rowByte b tx y p = rowByte c tx y p := by
  rw [rowByte, rowByte, rowBytes_eq_of_low low]

/-- The pixels of every byte of the stream lie inside the buffer, so agreement there is enough. -/
theorem encodeBuffer_eq_of_low {wt ht : Nat}
    (low : ∀ x < 8 * wt, ∀ y < 8 * ht, b x y &&& 3 = c x y &&& 3) :
    encodeBuffer b (8 * wt) (8 * ht) = encodeBuffer c (8 * wt) (8 * ht) := by
  rw [encodeBuffer_eq_map, encodeBuffer_eq_map]
  refine List.map_congr_left fun n hn => rowByte_eq_of_low (fun col hcol => ?_) _
  have tile : n / 16 < wt * ht := by
    rw [Nat.div_lt_iff_lt_mul (by decide), Nat.mul_right_comm, Nat.mul_comm (wt * 16)]
    exact List.mem_range.mp hn
  have txi : n / 16 % wt < wt := Nat.mod_lt _ (Nat.pos_of_lt_mul_right tile)
  have tyi : n / 16 / wt < ht := Nat.div_lt_of_lt_mul tile
  exact low _ (by omega) _ (by omega)

end

/-- Settles O34: BITX, one turn of the reference algorithm and one step of the machine each take the
two low bits of an entry only, and no port shows an entry. -/
theorem maskingLaw : Obligations.MaskingLaw := by
  refine ⟨fun p => ?_, fun b c low => encodeBuffer_eq_of_low (wt := 16) (ht := 16) low,
    fun s t u v h hs ht hu hv => ?_⟩
  · rw [and_three_eq_mod_four, bitsOf_mod_four]
  · have agree : u.AgreeLow v := h.of_step hs ht hu hv
    exact ⟨agree, agree.outputs⟩

end Sys2Proof.Machine
end

section
/-! The generic ADVANCE counts stream offsets (43_tile_serializer.md rules R118, R119): the four
counters are the digits of the offset, and moving them adds one to it. -/

namespace Sys2Proof.Machine

/-- The counters stand for a byte of the stream of a `8*wt` by `8*ht` buffer. -/
structure Counters.InRange (wt ht : Nat) (k : Counters) : Prop where
  tyi : k.tyi < ht
  txi : k.txi < wt
  plane : k.plane < 2
  row : k.row < 8

/-- The offset of the byte at the counters (rule R118). -/
def Counters.offset (wt : Nat) (k : Counters) : Nat := streamOffset wt k.tyi k.txi k.plane k.row

theorem Counters.offset_eq (wt : Nat) (k : Counters) :
    k.offset wt = (k.tyi * wt + k.txi) * 16 + k.plane * 8 + k.row := rfl

/-- The generic form moves to the byte at the next offset, and finishes at the last of the
`ht * wt * 16` bytes only. -/
theorem genericAdvance_cases {wt ht : Nat} {k : Counters} (h : k.InRange wt ht) :
    (genericAdvance wt ht k = none ∧ k.offset wt + 1 = ht * wt * 16) ∨
    ∃ k', genericAdvance wt ht k = some k' ∧ k'.InRange wt ht ∧
      k'.offset wt = k.offset wt + 1 := by
  obtain ⟨htyi, htxi, hplane, hrow⟩ := h
  unfold genericAdvance
  by_cases row : k.row < 7
  · refine .inr ⟨_, if_pos row, ⟨htyi, htxi, hplane, Nat.succ_lt_succ row⟩, rfl⟩
  have lastRow : k.row = 7 := by omega
  rw [if_neg row]
  by_cases plane : k.plane = 0
  · refine .inr ⟨_, if_pos plane, ⟨htyi, htxi, Nat.one_lt_two, Nat.succ_pos 7⟩, ?_⟩
    simp only [Counters.offset_eq, lastRow, plane]
  have lastPlane : k.plane = 1 := by omega
  rw [if_neg plane]
  by_cases txi : k.txi < wt - 1
  · refine .inr ⟨_, if_pos txi, ⟨htyi, Nat.add_lt_of_lt_sub txi, Nat.two_pos, Nat.succ_pos 7⟩, ?_⟩
    simp only [Counters.offset_eq, lastRow, lastPlane]
    omega
  have lastTxi : wt = k.txi + 1 := by omega
  rw [if_neg txi]
  have nextTileRow : (k.tyi + 1) * wt = k.tyi * wt + wt := Nat.succ_mul _ _
  by_cases tyi : k.tyi < ht - 1
  · refine .inr ⟨_, if_pos tyi,
      ⟨Nat.add_lt_of_lt_sub tyi, Nat.zero_lt_of_lt htxi, Nat.two_pos, Nat.succ_pos 7⟩, ?_⟩
    simp only [Counters.offset_eq, lastRow, lastPlane]
    omega
  have lastTyi : ht = k.tyi + 1 := by omega
  refine .inl ⟨if_neg tyi, ?_⟩
  rw [Counters.offset_eq, lastRow, lastPlane, lastTyi, nextTileRow]
  omega

end Sys2Proof.Machine
end

section
/-! The block is the generic form at 16 by 16 tiles: its operands are counters in range, `idx` is
their offset, and EMIT adds one to it or finishes (43_tile_serializer.md rules R113, R114). -/

namespace Sys2Proof.Machine

section
variable (tyi txi : TileIndex) (plane : Plane) (row : Offset3)

/-- The operands of EMIT as counters. -/
def operandCounters : Counters :=
  { tyi := tyi.toNat, txi := txi.toNat, plane := plane.toNat, row := row.toNat }

theorem operandCounters_inRange : (operandCounters tyi txi plane row).InRange 16 16 :=
  ⟨tyi.isLt, txi.isLt, plane.isLt, row.isLt⟩

theorem operandCounters_offset :
    (operandCounters tyi txi plane row).offset 16 = (idxOf tyi txi plane row).toNat :=
  (idxOf_toNat tyi txi plane row).symm

variable {tyi txi plane row} (s : State)

theorem exec_emit_last (h : idxOf tyi txi plane row = 0xFFF) :
    ∃ t, exec (.emit tyi txi plane row) s = .next t ∧ t.phase = .idle ∧ t.pos = 0 ∧
      t.done = true :=
  ⟨_, rfl, by simp [h], by simp [h], by simp [h]⟩

theorem exec_emit_of_ne (h : idxOf tyi txi plane row ≠ 0xFFF) :
    ∃ t, exec (.emit tyi txi plane row) s = .next t ∧ t.phase = .shift ∧
      t.pos = posOfIdx (idxOf tyi txi plane row + 1) :=
  ⟨_, rfl, by rw [State.nextByte_phase, if_neg h], by rw [State.nextByte_pos, if_neg h]⟩

end

/-- The fields of the first position of byte `n` are the counters whose offset is `n`. -/
theorem posOfIdx_fields_of_offset {k : Counters} {n : Idx} (h : k.InRange 16 16)
    (hn : n.toNat = k.offset 16) :
    (posTyi (posOfIdx n)).toNat = k.tyi ∧ (posTxi (posOfIdx n)).toNat = k.txi ∧
      (posPlane (posOfIdx n)).toNat = k.plane ∧ (posRow (posOfIdx n)).toNat = k.row := by
  obtain ⟨htyi, htxi, hplane, hrow⟩ := h
  rw [Counters.offset_eq] at hn
  rw [posTyi_toNat, posTxi_toNat, posPlane_toNat, posRow_toNat, posOfIdx_toNat]
  omega

/-- Settles O43: the generic form and EMIT both move to the next offset, where the fields of `pos`
are its digits, and both finish at the last one. -/
theorem genericAdvanceAt128 : Obligations.GenericAdvanceAt128 := by
  intro tyi txi plane row s
  have offset := operandCounters_offset tyi txi plane row
  rcases genericAdvance_cases (operandCounters_inRange tyi txi plane row) with
    ⟨finish, last⟩ | ⟨k, advance, inRange, next⟩
  · have hidx : idxOf tyi txi plane row = 0xFFF := by bv_omega
    rw [operandCounters] at finish
    rw [finish]
    exact ⟨hidx, exec_emit_last s hidx⟩
  · have below : k.offset 16 < 4096 := by
      obtain ⟨htyi, htxi, hplane, hrow⟩ := inRange
      rw [Counters.offset_eq]
      omega
    have hidx : idxOf tyi txi plane row ≠ 0xFFF := by bv_omega
    have hnext : (idxOf tyi txi plane row + 1).toNat = k.offset 16 := by bv_omega
    obtain ⟨htyi, htxi, hplane, hrow⟩ := posOfIdx_fields_of_offset inRange hnext
    obtain ⟨t, ht, hphase, hpos⟩ := exec_emit_of_ne s hidx
    rw [operandCounters] at advance
    rw [advance]
    refine ⟨hidx, t, ht, hphase, ?_⟩
    rw [hpos]
    exact ⟨htyi, htxi, hplane, hrow, posCol_posOfIdx _⟩

end Sys2Proof.Machine
end

section
/-! A run of PACK operations (44_bitplane_packer.md rules R130, R132): each moves the bits up by one,
so the last bits packed stand at the bottom, the newest lowest. -/

namespace Sys2Proof.Machine

/-- The accumulator's bits after packing `bs`: the bits packed at the bottom, those it held before
above them. -/
theorem foldl_packBit_getLsbD (A : Byte) (bs : List (BitVec 1)) {j : Nat} (hj : j < 8) :
    (bs.foldl packBit A).getLsbD j =
      if j < bs.length then (bs.getD (bs.length - 1 - j) 0).getLsbD 0
      else A.getLsbD (j - bs.length) := by
  induction bs using List.reverseRecOn generalizing j with
  | nil => rfl
  | append_singleton bs b ih =>
    rw [List.foldl_append, List.foldl_cons, List.foldl_nil, packBit_getLsbD]
    cases j with
    | zero => simp
    | succ j =>
      have moved : bs.length + 1 - 1 - (j + 1) = bs.length - 1 - j := by omega
      rw [if_neg j.succ_ne_zero, decide_eq_true hj, Bool.true_and, Nat.add_sub_cancel,
        ih (by omega), List.length_append, List.length_singleton, moved, Nat.add_sub_add_right]
      by_cases packed : j < bs.length
      · rw [if_pos packed, if_pos (by omega), List.getD_append _ _ _ _ (by omega)]
      · rw [if_neg packed, if_neg (by omega)]

/-- PACK on unbounded integers, as the document writes it: `(n << 1) | b`. -/
def appendBit (n : Nat) (b : BitVec 1) : Nat := n <<< 1 ||| b.toNat

theorem appendBit_eq (n : Nat) (b : BitVec 1) : appendBit n b = 2 * n + b.toNat := by
  rw [appendBit, ← Nat.shiftLeft_add_eq_or_of_lt b.isLt, Nat.shiftLeft_eq, Nat.mul_comm, Nat.pow_one]

/-- PACKs that fit above the bits already held lose no bit to the truncation to a byte
(44_bitplane_packer.md rule R134). -/
theorem foldl_packBit_toNat {A : Byte} {k : Nat} {bs : List (BitVec 1)} (hA : A.toNat < 2 ^ k)
    (fits : k + bs.length ≤ 8) : (bs.foldl packBit A).toNat = bs.foldl appendBit A.toNat := by
  induction bs generalizing A k with
  | nil => rfl
  | cons b bs ih =>
    rw [List.length_cons] at fits
    have hA7 : A.toNat < 2 ^ 7 := hA.trans_le (Nat.pow_le_pow_right Nat.two_pos (by omega))
    have pack : (packBit A b).toNat = appendBit A.toNat b := by
      rw [packBit_toNat_of_lt hA7, appendBit_eq]
    have bound : (packBit A b).toNat < 2 ^ (k + 1) := by
      have := b.isLt
      rw [packBit_toNat_of_lt hA7, Nat.pow_succ]
      omega
    rw [List.foldl_cons, List.foldl_cons, ih bound (by omega), pack]

/-- Settles O44: eight PACKs are the shifts and ORs of unbounded integers, and after fewer of them the
bits packed stand below the zeros of the cleared accumulator. -/
theorem byteLaw : Obligations.ByteLaw := by
  refine ⟨fun b0 b1 b2 b3 b4 b5 b6 b7 => ?_, fun bs short j => ?_⟩
  · rw [foldl_packBit_toNat (k := 0) (by decide) (by simp)]
    simp [appendBit, Nat.shiftLeft_or_distrib, ← Nat.shiftLeft_add]
  · by_cases hj : j < 8
    · simp only [foldl_packBit_getLsbD _ bs hj, BitVec.ofNat_eq_ofNat, BitVec.getLsbD_zero]
    · rw [BitVec.getLsbD_of_ge _ _ (Nat.le_of_not_lt hj), if_neg (by omega)]

end Sys2Proof.Machine
end

section
/-! The block raises nothing (60_exceptions.md rule R140). -/

namespace Sys2Proof.Machine

/-- Settles O9: every operation has a next state, and a step never refuses, because the control word
it forms always decodes (`decode_fetchWord`): its phase bits are never 11. -/
theorem nothingIsRaised : Obligations.NothingIsRaised :=
  ⟨exec_next, step_next⟩

end Sys2Proof.Machine
end

section
/-! The invariants of 10_state.md rule R25 and the first bytes of `encode(PIX)`, at launch and over
one step. -/

namespace Sys2Proof.Machine

/-- With the history empty and no byte being built, nothing has yet to agree with `encode(PIX)`. -/
theorem State.blockReset.encoding {s : State} (h : s.blockReset) : s.Encoding := by
  have inv := h.inv
  obtain ⟨hphase, -, -, -, -, hstream⟩ := h
  exact ⟨inv, by rw [hstream]; rfl, fun hbusy => absurd hphase hbusy⟩

/-- Settles O30: each of the six outcomes of a step keeps (a) to (e). -/
theorem stepKeepsInvariants : Obligations.StepKeepsInvariants :=
  fun _ _ inv h => inv.of_stepResult (step_next_iff_stepResult.mp h)

/-- Settles O33: a launch state has transferred nothing, and each outcome of a step keeps the bytes
and the accumulators at `encode(PIX)` while PIX stays. -/
theorem stepKeepsEncoding : Obligations.StepKeepsEncoding :=
  ⟨fun _ launch => launch.1.encoding,
    fun _ _ encoding hwrites h => encoding.of_stepResult hwrites (step_next_iff_stepResult.mp h)⟩

/-- Settles O29: a launch state has the reset values, at which (a) to (e) hold. -/
theorem invariantsAtLaunch : Obligations.InvariantsAtLaunch :=
  ⟨⟨⟨rfl, rfl, rfl, rfl, rfl, rfl⟩, rfl, State.reset_pix_wf⟩, fun _ launch => launch.1.inv⟩

end Sys2Proof.Machine
end

section
/-! The operation of a step (40_bitplane_encoder.md rule R70), what it takes from the nets, and
RESET. -/

namespace Sys2Proof.Machine

/-- Settles O7: the step function on a word that the decoder takes. -/
theorem stepRunsDecodedOperation : Obligations.StepRunsDecodedOperation := by
  intro s i h
  rw [step, h]

/-- Settles O8: the control word of a state decodes to the operation of rule R70. -/
theorem stepPerformsSelectedOperation : Obligations.StepPerformsSelectedOperation :=
  step_eq_exec_operationOf

section
variable {s t : State}

/-- All that the pixel part of SHIFT does. -/
theorem State.packPixel_eq (s : State) (a : PixAddr) :
    ((s.driveAddr a).readPixel a).extractBits.packBits =
      { s with
        acc0 := packBit s.acc0 (bitsOf (s.memRead a)).1
        acc1 := packBit s.acc1 (bitsOf (s.memRead a)).2
        nets := { s.nets with addr := a, re := true, pixel := s.memRead a
                              b0 := (bitsOf (s.memRead a)).1, b1 := (bitsOf (s.memRead a)).2 } } :=
  rfl

/-- All that RESET and START do. -/
theorem State.clearRun_setPhase_eq (s : State) (p : Phase) :
    s.clearRun.setPhase p =
      { s with phase := p, pos := 0, acc0 := 0, acc1 := 0, done := false, stream := [] } :=
  rfl

/-- The nets a step starts with go nowhere: the step drives each net before it takes a value from
it. -/
theorem StepResult.with_nets (h : StepResult s t) (n : Nets) :
    StepResult { s with nets := n } t := by
  cases h with
  | reset hrst =>
    have next := StepResult.reset (s := { s with nets := n }) hrst
    rw [State.clearRun_setPhase_eq] at next ⊢
    exact next
  | start hrst hphase hstart =>
    have next := StepResult.start (s := { s with nets := n }) hrst hphase hstart
    rw [State.clearRun_setPhase_eq] at next ⊢
    exact next
  | idle hrst hphase hstart => exact .idle hrst hphase hstart
  | shift hrst hphase =>
    have next := StepResult.shift (s := { s with nets := n }) hrst hphase
    rw [State.packPixel_eq, State.countPixel_eq] at next ⊢
    exact next
  | emit hrst hphase hready =>
    have next := StepResult.emit (s := { s with nets := n }) hrst hphase hready
    rw [State.nextByte_eq] at next ⊢
    exact next
  | stall hrst hphase hready => exact .stall hrst hphase hready

theorem StepResult.nets_eq_quiet (h : StepResult s t) : t.nets = Nets.quiet := by
  cases h <;> rfl

end

/-- Settles O10: both steps have the outcome whose guards the state meets. -/
theorem noHiddenState : Obligations.NoHiddenState := by
  intro s n
  obtain ⟨t, ht⟩ := exists_stepResult s
  exact ⟨by rw [ht.step_eq, (ht.with_nets n).step_eq],
    fun u hu => (step_next_iff_stepResult.mp hu).nets_eq_quiet⟩

/-- What the ports show at the reset values (10_state.md rule R24). -/
theorem State.blockReset.outputs {s : State} (h : s.blockReset) :
    s.outputs = { busy := false, done := false, pxRe := false, pxAddr := 0, outValid := false,
                  outData := 0x00 } := by
  obtain ⟨hphase, hpos, hacc0, hacc1, hdone, -⟩ := h
  have byte : s.outDataPort = 0x00 := by
    rw [State.outDataPort, State.acc, hacc0, hacc1, ite_self]
  rw [State.outputs, State.busy, State.pxAddrPort, hphase, hpos, hdone, byte]
  rfl

/-- Settles O12: `rst` selects RESET before any other test, and RESET leaves the reset values. -/
theorem resetFromAnyState : Obligations.ResetFromAnyState := by
  intro s hrst
  have reset := blockReset_of_reset s
  exact ⟨_, _, rfl, rfl, (StepResult.reset hrst).step_eq, rfl, reset, reset.outputs, rfl, rfl, rfl,
    rfl⟩

end Sys2Proof.Machine
end

section
/-! The control word of every row as its five selector bits and a position (30_encoding.md rules
R57, R58): a row looks at the selector bits and, FINISH and ADVANCE alone, at whether `idx` is all
ones. -/

namespace Sys2Proof

open Machine

/-! The fields of an assembled position (10_state.md rule R12). -/

section
variable (tyi txi : TileIndex) (plane : Plane) (row col : Offset3)

@[simp] theorem posTyi_posOf : posTyi (posOf tyi txi plane row col) = tyi := by
  apply BitVec.eq_of_toNat_eq
  rw [posTyi_toNat, posOf_toNat]
  omega

@[simp] theorem posTxi_posOf : posTxi (posOf tyi txi plane row col) = txi := by
  apply BitVec.eq_of_toNat_eq
  rw [posTxi_toNat, posOf_toNat]
  omega

@[simp] theorem posPlane_posOf : posPlane (posOf tyi txi plane row col) = plane := by
  apply BitVec.eq_of_toNat_eq
  rw [posPlane_toNat, posOf_toNat]
  omega

@[simp] theorem posRow_posOf : posRow (posOf tyi txi plane row col) = row := by
  apply BitVec.eq_of_toNat_eq
  rw [posRow_toNat, posOf_toNat]
  omega

@[simp] theorem posCol_posOf : posCol (posOf tyi txi plane row col) = col := by
  apply BitVec.eq_of_toNat_eq
  rw [posCol_toNat, posOf_toNat]
  omega

/-- The column is not part of `idx`. -/
@[simp] theorem posIdx_posOf : posIdx (posOf tyi txi plane row col) = idxOf tyi txi plane row := by
  rw [← idxOf_fields, posTyi_posOf, posTxi_posOf, posPlane_posOf, posRow_posOf]

/-- Masking a position masks its fields. -/
theorem and_posOf (p : Pos) : p &&& posOf tyi txi plane row col =
    posOf (posTyi p &&& tyi) (posTxi p &&& txi) (posPlane p &&& plane) (posRow p &&& row)
      (posCol p &&& col) := by
  conv_lhs => rw [← posOf_fields p]
  unfold posOf
  rw [BitVec.and_append, BitVec.and_append, BitVec.and_append, BitVec.and_append]

end

/-! The letters of an encoding string are the fields of the position. -/

section
variable (hi : BitVec 5) (pos : Pos)

@[simp] theorem cwTyi_append : cwTyi (hi ++ pos) = posTyi pos := by rw [cwTyi_eq, cwPos_append]

@[simp] theorem cwTxi_append : cwTxi (hi ++ pos) = posTxi pos := by rw [cwTxi_eq, cwPos_append]

@[simp] theorem cwPlane_append : cwPlane (hi ++ pos) = posPlane pos := by
  rw [cwPlane_eq, cwPos_append]

@[simp] theorem cwRow_append : cwRow (hi ++ pos) = posRow pos := by rw [cwRow_eq, cwPos_append]

@[simp] theorem cwCol_append : cwCol (hi ++ pos) = posCol pos := by rw [cwCol_eq, cwPos_append]

end

theorem append_inj_iff {m n : Nat} {a b : BitVec m} {c d : BitVec n} :
    a ++ c = b ++ d ↔ a = b ∧ c = d := by
  refine ⟨fun h => ?_, fun ⟨hab, hcd⟩ => hab ▸ hcd ▸ rfl⟩
  have high := congrArg (BitVec.extractLsb' n m) h
  have low := congrArg (BitVec.extractLsb' 0 n) h
  rw [BitVec.extractLsb'_append_eq_left, BitVec.extractLsb'_append_eq_left] at high
  rw [BitVec.extractLsb'_append_eq_right, BitVec.extractLsb'_append_eq_right] at low
  exact ⟨high, low⟩

/-- The position of a mask that keeps `idx`. -/
theorem and_idxMask (p : Pos) : p &&& posOfIdx 0xFFF = posOfIdx (posIdx p) := by
  have mask : posOfIdx 0xFFF = posOf (BitVec.allOnes 4) (BitVec.allOnes 4) (BitVec.allOnes 1)
    (BitVec.allOnes 3) 0 := by decide
  rw [mask, and_posOf, BitVec.and_allOnes, BitVec.and_allOnes, BitVec.and_allOnes,
    BitVec.and_allOnes, ← idxOf_fields]
  exact congrArg _ BitVec.and_zero

theorem posOfIdx_inj_iff {a b : Idx} : posOfIdx a = posOfIdx b ↔ a = b :=
  ⟨fun h => by simpa using congrArg posIdx h, congrArg posOfIdx⟩

/-! The patterns of opcode_table.json. -/

/-- The values of the selector bits that a row requires. -/
def Mnemonic.selector (m : Mnemonic) : BitVec 5 := m.bits.extractLsb' 15 5

/-- Which selector bits a row requires. -/
def Mnemonic.selectorMask (m : Mnemonic) : BitVec 5 := m.mask.extractLsb' 15 5

/-- Only FINISH requires bits of `pos`: all those of `idx`. -/
theorem Mnemonic.bits_eq (m : Mnemonic) :
    m.bits = m.selector ++ (if m = .finish then posOfIdx 0xFFF else 0) := by
  cases m <;> decide

theorem Mnemonic.mask_eq (m : Mnemonic) :
    m.mask = m.selectorMask ++ (if m = .finish then posOfIdx 0xFFF else 0) := by
  cases m <;> decide

open Laws.EncodeMatches in
/-- A word matches a row when its selector bits do and, for FINISH, its `idx` is all ones. -/
theorem matchesWord_append (m : Mnemonic) (hi : BitVec 5) (pos : Pos) :
    m.matchesWord (hi ++ pos) =
      (hi &&& m.selectorMask == m.selector && (m != .finish || posIdx pos == 0xFFF)) := by
  rw [Bool.eq_iff_iff, matchesWord_iff, m.mask_eq, m.bits_eq, BitVec.and_append, append_inj_iff]
  by_cases hm : m = .finish
  · rw [if_pos hm, and_idxMask, posOfIdx_inj_iff]
    simp [hm]
  · simp [hm]

/-- A row is selected by the selector bits and by whether `idx` is all ones. -/
def Mnemonic.selectedBy (hi : BitVec 5) (last : Bool) (m : Mnemonic) : Bool :=
  hi.extractLsb' 0 2 != 3 && hi &&& m.selectorMask == m.selector && (m != .finish || last) &&
    (m != .advance || !last)

theorem selects_append (m : Mnemonic) (hi : BitVec 5) (pos : Pos) :
    m.selects (hi ++ pos) = m.selectedBy hi (posIdx pos == 0xFFF) := by
  rw [Mnemonic.selects, Mnemonic.selectedBy, cwPhase_append, matchesWord_append,
    matchesWord_append]
  by_cases hm : m = .advance
  · have same : Mnemonic.finish.selectorMask = Mnemonic.advance.selectorMask ∧
      Mnemonic.finish.selector = Mnemonic.advance.selector := by decide
    rw [hm, same.1, same.2]
    cases hi &&& Mnemonic.advance.selectorMask == Mnemonic.advance.selector <;> simp
  · have other : (m == .advance) = false := beq_false_of_ne hm
    simp [other, bne, Bool.and_assoc]

theorem phase_and_matches_of_selects {m : Mnemonic} {cw : ControlWord} (h : m.selects cw = true) :
    cwPhase cw ≠ 3 ∧ m.matchesWord cw = true := by
  rw [Mnemonic.selects, Bool.and_eq_true, Bool.and_eq_true, bne_iff_ne] at h
  exact h.1

/-! The words of the encoder. -/

/-- The position that the word of an operation carries: its operands, 0 for every other bit but the
all-ones `idx` of FINISH. -/
def Instr.position : Instr → Pos
  | .shift tyi txi plane row col => posOf tyi txi plane row col
  | .pxaddr tyi txi row col | .pxread tyi txi row col => posOf tyi txi 0 row col
  | .emit tyi txi plane row | .xfer tyi txi plane row | .advance tyi txi plane row =>
    posOf tyi txi plane row 0
  | .stall plane | .sel plane => posOf 0 0 plane 0 0
  | .finish => posOfIdx 0xFFF
  | .reset | .idle | .start | .bitx | .pack | .clear => 0

theorem encode_eq (i : Instr) : encode i = i.mnemonic.selector ++ i.position := by
  have assoc (hi : BitVec 5) (tyi txi : TileIndex) (plane : Plane) (row col : Offset3) :
      hi ++ posOf tyi txi plane row col = hi ++ tyi ++ txi ++ plane ++ row ++ col := by
    apply BitVec.eq_of_toNat_eq
    simp only [posOf, toNat_append_eq]
    omega
  have reading : ∀ m ∈ [Mnemonic.shift, .pxaddr, .pxread], m.selector = 0b00001 := by decide
  have sending : ∀ m ∈ [Mnemonic.emit, .xfer, .advance], m.selector = 0b00110 := by decide
  cases i with
  | reset | idle | start | bitx | pack | clear | finish => decide
  | shift | pxaddr | pxread =>
    rw [Instr.position, assoc, Instr.mnemonic, reading _ (by simp), encode]
  | emit | xfer | advance =>
    rw [Instr.position, assoc, Instr.mnemonic, sending _ (by simp), encode]
  | stall plane | sel plane => rcases plane_cases plane with rfl | rfl <;> decide

/-- The operands of an operation are the fields of its word. -/
theorem operandsOf_encode (i : Instr) : operandsOf i.mnemonic (encode i) = i := by
  rw [encode_eq]
  cases i <;> simp [operandsOf, Instr.mnemonic, Instr.position]

/-- The word of a well-formed operation selects its row. -/
theorem selects_encode {i : Instr} (h : i.wellFormed = true) :
    i.mnemonic.selects (encode i) = true := by
  have row (m : Mnemonic) (last : Bool) :
      m.selectedBy m.selector last = ((m != .finish || last) && (m != .advance || !last)) := by
    cases m <;> revert last <;> decide
  rw [encode_eq, selects_append, row]
  cases i with
  | advance tyi txi plane row =>
    have hidx : idxOf tyi txi plane row ≠ 0xFFF := bne_iff_ne.mp h
    simpa [Instr.mnemonic, Instr.position] using hidx
  | finish => decide
  | _ => rfl

/-- The bits of `pos` that a row looks at. -/
def Mnemonic.posMask : Mnemonic → Pos
  | .shift => posOf 15 15 1 7 7
  | .pxaddr | .pxread => posOf 15 15 0 7 7
  | .emit | .xfer | .advance => posOf 15 15 1 7 0
  | .stall | .sel => posOf 0 0 1 0 0
  | .finish => posOfIdx 0xFFF
  | .reset | .idle | .start | .bitx | .pack | .clear => 0

theorem Mnemonic.mask_or_fieldMask (m : Mnemonic) :
    m.mask ||| m.fieldMask = m.selectorMask ++ m.posMask := by
  cases m <;> decide

@[simp] theorem mnemonic_operandsOf (m : Mnemonic) (cw : ControlWord) :
    (operandsOf m cw).mnemonic = m := by
  cases m <;> rfl

/-- The position of the operation that a selected row reads keeps the bits the row looks at. -/
theorem position_operandsOf {m : Mnemonic} (hi : BitVec 5) {pos : Pos}
    (h : m = .finish → posIdx pos = 0xFFF) :
    (operandsOf m (hi ++ pos)).position = pos &&& m.posMask := by
  have tile (x : TileIndex) : x &&& 15#4 = x := BitVec.and_allOnes
  have pass (x : Plane) : x &&& 1#1 = x := BitVec.and_allOnes
  have offset (x : Offset3) : x &&& 7#3 = x := BitVec.and_allOnes
  cases m with
  | finish => rw [Mnemonic.posMask, and_idxMask, h rfl]; rfl
  | reset | idle | start | bitx | pack | clear => exact BitVec.and_zero.symm
  | _ =>
    rw [Mnemonic.posMask, and_posOf]
    simp [operandsOf, Instr.position, tile, pass, offset]

/-- What a selected row reads from a word is well formed: ADVANCE leaves the all-ones `idx` to
FINISH. -/
theorem wellFormed_operandsOf {m : Mnemonic} {hi : BitVec 5} {pos : Pos}
    (h : m = .advance → posIdx pos ≠ 0xFFF) : (operandsOf m (hi ++ pos)).wellFormed = true := by
  cases m with
  | advance =>
    have hidx := h rfl
    rw [← idxOf_fields, idxOf] at hidx
    simpa [operandsOf, Instr.wellFormed] using hidx
  | _ => rfl

/-- Settles O2: the word of what a selected row reads has the row's selector bits, and of `pos` the
bits the row looks at. -/
theorem encodeDecodeAgree : Obligations.EncodeDecodeAgree := by
  intro m cw i h
  rw [decodeAs] at h
  split_ifs at h with hph hselects
  cases h
  obtain ⟨hi, pos, rfl⟩ : ∃ hi pos, cw = hi ++ pos := ⟨_, _, word_split cw⟩
  rw [selects_append] at hselects
  simp only [Mnemonic.selectedBy, Bool.and_eq_true, beq_iff_eq, Bool.or_eq_true,
    bne_iff_ne] at hselects
  obtain ⟨⟨⟨-, hselector⟩, hfinish⟩, hadvance⟩ := hselects
  refine ⟨mnemonic_operandsOf m _, wellFormed_operandsOf ?_, ?_⟩
  · simpa [imp_iff_not_or] using hadvance
  · rw [encode_eq, mnemonic_operandsOf, position_operandsOf hi (imp_iff_not_or.mpr hfinish),
      m.mask_or_fieldMask, BitVec.and_append, hselector]

/-! The rows of kind step: each word whose `ph` is not 11 is a control word of some inputs and some
phase, which match exactly one of them. -/

/-- A control word is its three levels, its phase code and its position. -/
theorem controlWord_fields (cw : ControlWord) :
    BitVec.ofBool (cwRst cw) ++ BitVec.ofBool (cwStart cw) ++ BitVec.ofBool (cwOutReady cw) ++
      cwPhase cw ++ cwPos cw = cw := by
  have split (hi : BitVec 5) : BitVec.ofBool (hi.getLsbD 4) ++ BitVec.ofBool (hi.getLsbD 3) ++
      BitVec.ofBool (hi.getLsbD 2) ++ hi.extractLsb' 0 2 = hi := by
    revert hi
    decide
  have levels : cwRst cw = (cw.extractLsb' 15 5).getLsbD 4 ∧
      cwStart cw = (cw.extractLsb' 15 5).getLsbD 3 ∧
      cwOutReady cw = (cw.extractLsb' 15 5).getLsbD 2 := by
    simp [cwRst, cwStart, cwOutReady]
  have code : cwPhase cw = (cw.extractLsb' 15 5).extractLsb' 0 2 := by
    conv_lhs => rw [word_split cw, cwPhase_append]
  rw [levels.1, levels.2.1, levels.2.2, code, split, ← word_split]

theorem exists_phaseOfCode {code : BitVec 2} (h : code ≠ 3) :
    ∃ phase, phaseOfCode code = some phase ∧ phaseCode phase = code := by
  rcases (by revert code; decide : code = 0 ∨ code = 1 ∨ code = 2) with rfl | rfl | rfl
  · exact ⟨.idle, rfl, rfl⟩
  · exact ⟨.shift, rfl, rfl⟩
  · exact ⟨.emit, rfl, rfl⟩

theorem exists_controlWord {cw : ControlWord} (h : cwPhase cw ≠ 3) :
    ∃ i phase pos, controlWord i phase pos = cw := by
  obtain ⟨phase, -, code⟩ := exists_phaseOfCode h
  refine ⟨⟨cwRst cw, cwStart cw, cwOutReady cw, []⟩, phase, cwPos cw, ?_⟩
  rw [controlWord, code, controlWord_fields]

/-- The component rows that the sampled levels, the phase and whether `idx` is all ones select, in
the order of 40_bitplane_encoder.md rules R74 and R75. -/
def selectedComponents (rst outReady last : Bool) : Phase → List Mnemonic
  | .idle => []
  | .shift => if rst then [] else [.pxaddr, .pxread, .bitx, .pack]
  | .emit =>
    if rst then []
    else if outReady then [.sel, .xfer, .clear, if last then .finish else .advance]
    else [.sel]

theorem stepRows_filter_controlWord (i : Inputs) (phase : Phase) (pos : Pos) :
    stepRows.filter (·.matchesWord (controlWord i phase pos)) =
      [selectedRow i.rst i.start i.outReady phase] := by
  have rows (rst start ready : Bool) :
      stepRows.filter (fun m =>
        selectorBits rst start ready phase &&& stepMaskHi m == stepBitsHi m) =
          [selectedRow rst start ready phase] := by
    cases phase <;> revert rst start ready <;> decide
  have step : ∀ m ∈ stepRows, m.kind = .step := by decide
  rw [← rows, controlWord_eq_selectorBits_append]
  exact List.filter_congr fun m hm => step_matchesWord (step m hm) _ _

theorem selectedRow_kind (rst start outReady : Bool) (phase : Phase) :
    (selectedRow rst start outReady phase).kind = .step := by
  cases phase <;> revert rst start outReady <;> decide

theorem componentRows_filter_controlWord (i : Inputs) (phase : Phase) (pos : Pos) :
    componentRows.filter (·.selects (controlWord i phase pos)) =
      selectedComponents i.rst i.outReady (posIdx pos == 0xFFF) phase := by
  have rows (rst start ready last : Bool) :
      componentRows.filter (Mnemonic.selectedBy (selectorBits rst start ready phase) last) =
        selectedComponents rst ready last phase := by
    cases phase <;> revert rst start ready last <;> decide
  rw [← rows i.rst i.start, controlWord_eq_selectorBits_append]
  exact List.filter_congr fun m _ => selects_append m _ _

theorem mem_stepRows_iff {m : Mnemonic} : m ∈ stepRows ↔ m.kind = .step := by
  cases m <;> decide

theorem mem_componentRows_iff {m : Mnemonic} : m ∈ componentRows ↔ m.kind = .component := by
  cases m <;> decide

/-- Settles O3: a word whose `ph` is not 11 is a control word of some inputs and phase, which select
one row of kind step; every decoder tests `ph` first. -/
theorem oneStepRowPerWord : Obligations.OneStepRowPerWord := by
  refine fun cw => ⟨fun h => ?_, fun h => ?_⟩
  · obtain ⟨i, phase, pos, rfl⟩ := exists_controlWord h
    refine ⟨_, stepRows_filter_controlWord i phase pos, ?_, selectedRow_kind ..⟩
    rw [decode_controlWord, controlWord_eq_selectorBits_append, operandsOf_selectedRow]
  · have none (m : Mnemonic) : m.selects cw = false := by simp [Mnemonic.selects, h]
    exact ⟨if_pos h, by simp [components, none], fun m => if_pos h⟩

/-- Settles O1: the word of a well-formed operation selects its row and carries its operands, and no
second row of kind step matches it (O3). -/
theorem decodeEncodeAgree : Obligations.DecodeEncodeAgree := by
  intro i wf
  have selects := selects_encode wf
  obtain ⟨hph, hmatch⟩ := phase_and_matches_of_selects selects
  refine ⟨?_, fun hstep => ?_, fun hcomp => ?_⟩
  · rw [decodeAs, if_neg hph, if_pos selects, operandsOf_encode]
  · obtain ⟨m, only, decoded, -⟩ := (oneStepRowPerWord (encode i)).1 hph
    have mem : i.mnemonic ∈ stepRows.filter (·.matchesWord (encode i)) := by
      exact List.mem_filter.mpr ⟨mem_stepRows_iff.mpr hstep, hmatch⟩
    rw [only, List.mem_singleton] at mem
    rw [decoded, ← mem, operandsOf_encode]
  · exact List.mem_map.mpr ⟨i.mnemonic,
      List.mem_filter.mpr ⟨mem_componentRows_iff.mpr hcomp, selects⟩, operandsOf_encode i⟩


/-- Settles O4: the selected component rows, with the fields of `pos` as their operands. -/
theorem componentsOfStepOperations : Obligations.ComponentsOfStepOperations := by
  intro i phase pos
  rw [components, componentRows_filter_controlWord, controlWord_eq_selectorBits_append]
  cases hr : i.rst with
  | true => cases phase <;> rfl
  | false =>
    cases phase with
    | idle => rfl
    | shift => simp [selectedComponents, operandsOf]
    | emit =>
      cases ho : i.outReady with
      | false => simp [selectedComponents, operandsOf]
      | true =>
        by_cases hlast : posIdx pos = 4095#12
        · simp [selectedComponents, operandsOf, hlast]
        · simp [selectedComponents, operandsOf, hlast]

theorem controlWordOf_of_lt {w : Nat} (h : w < 2 ^ 20) :
    controlWordOf 24 w = some (BitVec.ofNat 20 w) := by
  rw [controlWordOf, Nat.mod_eq_of_lt (h.trans (by decide)), if_pos h]

theorem fetchWord_withFetchWord (s : State) {w : Nat} (hw : w < 2 ^ 20)
    (hph : cwPhase (BitVec.ofNat 20 w) ≠ 3) :
    (s.withFetchWord 24 w).fetchWord = BitVec.ofNat 20 w := by
  obtain ⟨phase, hphase, hcode⟩ := exists_phaseOfCode hph
  rw [State.withFetchWord, State.placeWord, controlWordOf_of_lt hw]
  simp only [State.fetchWord, State.withControlWord, hphase, Option.getD_some, controlWord, hcode]
  exact controlWord_fields _

/-- Settles O6: the placed levels, phase and position make up the word again, and a step runs what
its control word decodes to. -/
theorem placedWordIsFetched : Obligations.PlacedWordIsFetched := by
  intro s w hw hph
  have fetched := fetchWord_withFetchWord s hw hph
  have decoded := decode_fetchWord (s.withFetchWord 24 w)
  rw [fetched] at decoded
  obtain ⟨t, ht⟩ := exec_next _ (s.withFetchWord 24 w).sample
  refine ⟨fetched, _, t, ?_, ht, step_of_operationOf rfl ht⟩
  simp only [decodeTableWord, controlWordOf_of_lt hw, decoded]

/-- Settles O5, by running the decoder on the eight words. -/
theorem writtenWordsDecode : Obligations.WrittenWordsDecode := by
  unfold Obligations.WrittenWordsDecode
  decide

end Sys2Proof
end

section
/-! Who writes what: the state that an operation leaves as it was (10_state.md rules R11, R14, R16,
R21; 40_bitplane_encoder.md rule R81). -/

namespace Sys2Proof.Machine

section
variable {i : Instr} {s t : State}

/-- No operation writes what is the host's. -/
theorem exec_sameHost (h : exec i s = .next t) : s.SameHost t := by
  obtain ⟨hpixw, hpix⟩ := exec_pixw_pix h
  have queue : t.inputs = s.inputs ∧ t.tick = s.tick := by cases i <;> cases h <;> simp
  exact ⟨hpixw, fun a => by rw [hpix], queue.1, queue.2⟩

theorem exec_keeps_phase_pos (h : exec i s = .next t)
    (hm : i.mnemonic ∉ [.reset, .start, .shift, .emit, .advance, .finish]) :
    t.phase = s.phase ∧ t.pos = s.pos := by
  cases i with
  | reset | start | shift | emit | advance | finish => simp [Instr.mnemonic] at hm
  | idle | stall | pxaddr | pxread | bitx | pack | clear | sel | xfer =>
    cases h; exact ⟨rfl, rfl⟩

theorem exec_keeps_accs (h : exec i s = .next t)
    (hm : i.mnemonic ∉ [.reset, .start, .shift, .emit, .pack, .clear]) :
    t.acc0 = s.acc0 ∧ t.acc1 = s.acc1 := by
  cases i with
  | reset | start | shift | emit | pack | clear => simp [Instr.mnemonic] at hm
  | idle | stall | pxaddr | pxread | bitx | sel | xfer | advance | finish =>
    cases h; exact ⟨rfl, rfl⟩

theorem exec_keeps_done (h : exec i s = .next t)
    (hm : i.mnemonic ∉ [.reset, .start, .emit, .finish]) : t.done = s.done := by
  cases i with
  | reset | start | emit | finish => simp [Instr.mnemonic] at hm
  | shift => cases h; simp
  | idle | stall | pxaddr | pxread | bitx | pack | clear | sel | xfer | advance => cases h; rfl

/-- The history is emptied, or grows by one byte, or stays. -/
theorem exec_stream_cases (h : exec i s = .next t) :
    (i.mnemonic ∈ [.reset, .start] ∧ t.stream = []) ∨
      (i.mnemonic ∈ [.emit, .xfer] ∧ ∃ v, t.stream = s.stream ++ [v]) ∨ t.stream = s.stream := by
  cases i with
  | reset | start => cases h; exact .inl ⟨by simp [Instr.mnemonic], rfl⟩
  | emit => cases h; exact .inr (.inl ⟨by simp [Instr.mnemonic], _, by simp; rfl⟩)
  | xfer => cases h; exact .inr (.inl ⟨by simp [Instr.mnemonic], _, rfl⟩)
  | shift => cases h; exact .inr (.inr (by simp))
  | idle | stall | pxaddr | pxread | bitx | pack | clear | sel | advance | finish =>
    cases h; exact .inr (.inr rfl)

end

/-- Settles O14: an operation of none of the rows named for an item keeps it. -/
theorem onlyNamedOperationsWrite : Obligations.OnlyNamedOperationsWrite := by
  intro i s t h
  refine ⟨?_, ?_, ?_, ?_, fun hstream => ?_, exec_sameHost h⟩
  · exact fun hphase => by_contra fun hm => hphase (exec_keeps_phase_pos h hm).1
  · exact fun hpos => by_contra fun hm => hpos (exec_keeps_phase_pos h hm).2
  · exact fun haccs => by_contra fun hm =>
      haccs.elim (· (exec_keeps_accs h hm).1) (· (exec_keeps_accs h hm).2)
  · exact fun hdone => by_contra fun hm => hdone (exec_keeps_done h hm)
  · exact (exec_stream_cases h).imp_right (·.resolve_right hstream)

end Sys2Proof.Machine
end

section
/-! What each operation leaves, in plain arithmetic (40_bitplane_encoder.md rules R71 to R76,
41_pixel_buffer_reader.md rules R90, R91, 42_bit_extractor.md rule R100, 43_tile_serializer.md rules
R110 to R114, 44_bitplane_packer.md rules R130, R131). -/

namespace Sys2Proof.Machine

/-! Numbers. -/

/-- `a = 128*y + x` (41_pixel_buffer_reader.md rule R90). -/
theorem pxAddrOf_toNat_eq (tyi txi : TileIndex) (row col : Offset3) :
    (pxAddrOf tyi txi row col).toNat =
      128 * (8 * tyi.toNat + row.toNat) + (8 * txi.toNat + col.toNat) := by
  rw [pxAddrOf_toNat, Nat.mul_comm]

theorem State.memRead_pxAddrOf (s : State) (tyi txi : TileIndex) (row col : Offset3) :
    s.memRead (pxAddrOf tyi txi row col) = Memory.read s.pix
      (128 * (8 * tyi.toNat + row.toNat) + (8 * txi.toNat + col.toNat)) := by
  rw [State.memRead, pxAddrOf_toNat_eq]

theorem bitsOf_toNat (p : Nat) :
    (bitsOf p).1.toNat = p % 2 ∧ (bitsOf p).2.toNat = p / 2 % 2 := by
  simp [bitsOf, entryBit_toNat]

theorem idxOf_eq_ofNat (tyi txi : TileIndex) (plane : Plane) (row : Offset3) :
    idxOf tyi txi plane row =
      BitVec.ofNat 12 ((tyi.toNat * 16 + txi.toNat) * 16 + plane.toNat * 8 + row.toNat) := by
  rw [← idxOf_toNat, BitVec.ofNat_toNat, BitVec.setWidth_eq]

/-- `acc[plane]` by the number of the pass (43_tile_serializer.md rule R110). -/
theorem State.acc_eq (s : State) (plane : Plane) :
    s.acc plane = if plane.toNat = 1 then s.acc1 else s.acc0 := by
  rcases plane_cases plane with rfl | rfl <;> rfl

/-- A byte appended to the history is no other byte of it. -/
theorem getElem?_append_singleton_of_ne {bytes : List Byte} {v : Byte} {k : Nat}
    (h : k ≠ bytes.length) : (bytes ++ [v])[k]? = bytes[k]? := by
  rcases Nat.lt_or_gt_of_ne h with below | above
  · exact List.getElem?_append_left below
  · rw [List.getElem?_eq_none (by simp; omega), List.getElem?_eq_none (by omega)]

/-- The block has no item on the nets. -/
theorem sameBlock_with_nets (s : State) (n : Nets) : s.SameBlock { s with nets := n } :=
  ⟨rfl, rfl, rfl, rfl, rfl, fun _ => rfl⟩

/-! The step operations. -/

/-- Settles O15: RESET writes the reset values and nothing of the host's. -/
theorem resetResult : Obligations.ResetResult :=
  fun _ => ⟨_, rfl, ⟨rfl, rfl, rfl, rfl, rfl, rfl⟩, rfl, rfl, exec_sameHost (i := .reset) rfl⟩

/-- Settles O16: IDLE answers its own state, STALL drives the net of SEL only. -/
theorem idleAndStallResult : Obligations.IdleAndStallResult :=
  fun s plane => ⟨rfl, _, rfl, sameBlock_with_nets s _,
    exec_sameHost (i := .stall plane) rfl, rfl, rfl⟩

/-- Settles O17: START writes what RESET writes but the phase. -/
theorem startResult : Obligations.StartResult :=
  fun _ => ⟨_, rfl, rfl, rfl, rfl, rfl, rfl, rfl, rfl, rfl, exec_sameHost (i := .start) rfl⟩

/-- All that SHIFT does, up to the count of the pixel. -/
theorem exec_shift_eq (tyi txi : TileIndex) (plane : Plane) (row col : Offset3) (s : State) :
    exec (.shift tyi txi plane row col) s =
      let a := pxAddrOf tyi txi row col
      let p := s.memRead a
      .next (State.countPixel
        { s with
          acc0 := packBit s.acc0 (bitsOf p).1
          acc1 := packBit s.acc1 (bitsOf p).2
          nets := { s.nets with addr := a, re := true, pixel := p
                                b0 := (bitsOf p).1, b1 := (bitsOf p).2 } } col) := by
  rw [exec, execShift, State.packPixel_eq]

/-- Settles O18: the entry at the address gives one bit to each accumulator, and the column
counts. -/
theorem shiftResult : Obligations.ShiftResult := by
  intro tyi txi plane row col s
  refine ⟨_, exec_shift_eq tyi txi plane row col s, ?_⟩
  rw [State.memRead_pxAddrOf]
  intro p
  obtain ⟨bit0, bit1⟩ := bitsOf_toNat p
  have host : s.SameHost _ := exec_sameHost (exec_shift_eq tyi txi plane row col s)
  rw [State.memRead_pxAddrOf] at host
  refine ⟨?_, ?_, ?_, ?_, ?_, ?_, host, ?_⟩
  · rw [State.countPixel_acc0, packBit_toNat, bit0]
  · rw [State.countPixel_acc1, packBit_toNat, bit1]
  · rw [State.countPixel_pos, posSetCol_toNat, BitVec.toNat_add]
    rfl
  · have last : col = 7 ↔ col.toNat = 7 := BitVec.toNat_inj.symm
    rw [State.countPixel_phase]
    exact if_congr last rfl rfl
  · rw [State.countPixel_done]
  · rw [State.countPixel_stream]
  · rw [State.countPixel_nets]
    exact ⟨rfl, rfl, pxAddrOf_toNat_eq tyi txi row col, bit0, bit1, rfl, rfl⟩

/-- All that EMIT does, up to the move of `pos`. -/
theorem exec_emit_eq (tyi txi : TileIndex) (plane : Plane) (row : Offset3) (s : State) :
    exec (.emit tyi txi plane row) s =
      let n := idxOf tyi txi plane row
      .next (State.nextByte
        { s with
          acc0 := 0
          acc1 := 0
          stream := s.stream ++ [s.acc plane]
          nets := { s.nets with byte := s.acc plane, taken := some (n, s.acc plane) } } n) := rfl

theorem toNat_add_one_of_ne_last {n : Idx} (h : n ≠ 0xFFF) : (n + 1).toNat = n.toNat + 1 := by
  bv_omega

/-- Settles O19: the byte of the pass is appended, the accumulators are cleared, and byte 4095 is
the last. -/
theorem emitResult : Obligations.EmitResult := by
  intro tyi txi plane row s
  refine ⟨_, exec_emit_eq tyi txi plane row s, ?_⟩
  have host : s.SameHost _ := exec_sameHost (exec_emit_eq tyi txi plane row s)
  rw [State.acc_eq] at host ⊢
  intro n v
  have number : (idxOf tyi txi plane row).toNat = n := idxOf_toNat tyi txi plane row
  have last : idxOf tyi txi plane row = 0xFFF ↔ n = 4095 := by
    rw [← number]
    exact BitVec.toNat_inj.symm
  refine ⟨?_, fun k hk => ?_, ?_, ?_, fun hn => ?_, fun hn => ?_, ?_, host⟩
  · rw [State.nextByte_stream]
  · rw [State.nextByte_stream]
    exact getElem?_append_singleton_of_ne hk
  · rw [State.nextByte_acc0]
  · rw [State.nextByte_acc1]
  · rw [last.mpr hn, State.nextByte_last]
    exact ⟨rfl, rfl, rfl⟩
  · have more := mt last.mp hn
    rw [State.nextByte_of_ne more]
    exact ⟨rfl, by rw [State.advanceTo_pos, posOfIdx_toNat, toNat_add_one_of_ne_last more, number],
      rfl⟩
  · rw [State.nextByte_nets, idxOf_eq_ofNat]

/-- Settles O25: `idx + 1` has the fields of the next row, pass, tile or tile row. -/
theorem advanceResult : Obligations.AdvanceResult := by
  intro tyi txi plane row s
  have pos_eq {tyi' txi' : TileIndex} {plane' : Plane} {row' : Offset3}
      (next : (idxOf tyi' txi' plane' row').toNat =
        ((tyi.toNat * 16 + txi.toNat) * 16 + plane.toNat * 8 + row.toNat + 1) % 4096) :
      posOfIdx (idxOf tyi txi plane row + 1) = posOf tyi' txi' plane' row' 0 := by
    have idx : idxOf tyi txi plane row + 1 = idxOf tyi' txi' plane' row' := by
      apply BitVec.eq_of_toNat_eq
      rw [next, BitVec.toNat_add, idxOf_toNat]
      rfl
    rw [idx]
    rfl
  refine ⟨_, rfl, rfl, fun hrow => pos_eq ?_, fun hrow hplane => pos_eq ?_,
    fun hrow hplane htxi => pos_eq ?_, fun hrow hplane htxi htyi => pos_eq ?_, rfl, rfl, rfl,
    rfl, rfl, exec_sameHost (i := .advance tyi txi plane row) rfl⟩
  all_goals rw [idxOf_toNat]
  · rw [toNat_add_one_of_ne_seven hrow]
    bv_omega
  · subst hrow hplane
    bv_omega
  · subst hrow hplane
    bv_omega
  · subst hrow hplane htxi
    bv_omega

/-! The component operations. -/

/-- Settles O20: both drive the address of the pixel, PXREAD samples the entry there. -/
theorem pixelReadResult : Obligations.PixelReadResult := by
  intro tyi txi row col s a
  have address : (pxAddrOf tyi txi row col).toNat = a := pxAddrOf_toNat_eq tyi txi row col
  have read : s.memRead (pxAddrOf tyi txi row col) = Memory.read s.pix a :=
    s.memRead_pxAddrOf tyi txi row col
  refine ⟨⟨_, rfl, address, rfl, sameBlock_with_nets s _,
    exec_sameHost (i := .pxaddr tyi txi row col) rfl⟩, ?_⟩
  exact ⟨_, rfl, address, rfl, read, fun wf => Memory.read_lt s.pix wf _, rfl,
    sameBlock_with_nets s _, exec_sameHost (i := .pxread tyi txi row col) rfl⟩

/-- Settles O21: bit 0 and bit 1 of the entry are `pixel & 1` and `(pixel >> 1) & 1`. -/
theorem bitxResult : Obligations.BitxResult := by
  intro s
  obtain ⟨bit0, bit1⟩ := bitsOf_toNat s.nets.pixel
  refine ⟨_, rfl, ?_, ?_, rfl, sameBlock_with_nets s _, exec_sameHost (i := .bitx) rfl⟩
  · rw [Nat.and_one_is_mod]
    exact bit0
  · rw [Nat.and_one_is_mod, Nat.shiftRight_eq_div_pow, pow_one]
    exact bit1

/-- Settles O22: `{A[6:0], b}` is `((A << 1) | b)[7:0]`. -/
theorem packResult : Obligations.PackResult := by
  intro s
  have pack (A : Byte) (b : BitVec 1) :
      (packBit A b).toNat = (A.toNat <<< 1 ||| b.toNat) % 256 := by
    rw [packBit_toNat, ← Nat.shiftLeft_add_eq_or_of_lt b.isLt, Nat.shiftLeft_eq, Nat.mul_comm,
      pow_one]
  exact ⟨_, rfl, pack _ _, pack _ _, rfl, rfl, rfl, rfl, rfl, exec_sameHost (i := .pack) rfl⟩

/-- Settles O23: CLEAR writes the accumulators only. -/
theorem clearResult : Obligations.ClearResult :=
  fun _ => ⟨_, rfl, rfl, rfl, rfl, rfl, rfl, rfl, rfl, exec_sameHost (i := .clear) rfl⟩

/-- Settles O24: SEL drives the accumulator of the pass, XFER appends the byte on that net. -/
theorem selAndXferResult : Obligations.SelAndXferResult := by
  intro tyi txi plane row s
  refine ⟨⟨_, rfl, ?_, sameBlock_with_nets s _, exec_sameHost (i := .sel plane) rfl⟩,
    _, rfl, rfl, fun k hk => getElem?_append_singleton_of_ne hk, ?_, rfl, rfl, rfl, rfl, rfl,
    exec_sameHost (i := .xfer tyi txi plane row) rfl⟩
  · rw [State.selectByte_nets, State.acc_eq]
  · rw [State.transfer_nets, idxOf_eq_ofNat]

/-- Settles O26: FINISH moves to phase IDLE with `done` set and keeps the accumulators. -/
theorem finishResult : Obligations.FinishResult :=
  fun _ => ⟨_, rfl, rfl, rfl, rfl, rfl, rfl, rfl, rfl, rfl, exec_sameHost (i := .finish) rfl⟩

end Sys2Proof.Machine
end

section
/-! The component operations inside a step (40_bitplane_encoder.md rules R74 to R76) and the output
ports (10_state.md rule R18). -/

namespace Sys2Proof.Machine

theorem execAll_cons_of_exec {i : Instr} {s t : State} (h : exec i s = .next t)
    (rest : List Instr) : execAll (i :: rest) s = execAll rest t := by
  rw [execAll, h]

/-- EMIT is SEL, XFER, CLEAR, and then FINISH for the last byte, else ADVANCE. -/
theorem execAll_emit (tyi txi : TileIndex) (plane : Plane) (row : Offset3) (s : State) :
    execAll [.sel plane, .xfer tyi txi plane row, .clear,
      if idxOf tyi txi plane row = 0xFFF then .finish else .advance tyi txi plane row] s =
        exec (.emit tyi txi plane row) s := by
  rw [execAll_cons_of_exec rfl, execAll_cons_of_exec rfl, execAll_cons_of_exec rfl, exec, execEmit]
  by_cases hlast : idxOf tyi txi plane row = 0xFFF
  · rw [if_pos hlast, hlast, State.nextByte_last]
    rfl
  · rw [if_neg hlast, State.nextByte_of_ne hlast]
    rfl

/-- SHIFT is PXADDR, PXREAD, BITX and PACK, and then the count of the pixel. -/
theorem execAll_shift (tyi txi : TileIndex) (plane : Plane) (row col : Offset3) (s : State) :
    ∃ u, execAll [.pxaddr tyi txi row col, .pxread tyi txi row col, .bitx, .pack] s = .next u ∧
      u.phase = s.phase ∧ u.pos = s.pos ∧
        exec (.shift tyi txi plane row col) s = .next (u.countPixel col) :=
  ⟨_, rfl, rfl, rfl, rfl⟩

/-- Settles O27: the components that the word selects (O4) run one after the other. -/
theorem stepOperationsAreTheirComponents : Obligations.StepOperationsAreTheirComponents := by
  intro i s hrst
  have running : ¬ i.rst = true := by simp [hrst]
  refine ⟨fun hphase => ?_, fun hphase => ?_⟩
  all_goals rw [componentsOfStepOperations, hphase, if_neg running]
  · cases hready : i.outReady with
    | true =>
      have operation : operationOf i .emit s.pos =
          .emit (posTyi s.pos) (posTxi s.pos) (posPlane s.pos) (posRow s.pos) := by
        simp [operationOf, hrst, hready]
      rw [operation, ← execAll_emit, idxOf_fields]
      rfl
    | false =>
      have operation : operationOf i .emit s.pos = .stall (posPlane s.pos) := by
        simp [operationOf, hrst, hready]
      rw [operation]
      rfl
  · have operation : operationOf i .shift s.pos =
        .shift (posTyi s.pos) (posTxi s.pos) (posPlane s.pos) (posRow s.pos) (posCol s.pos) := by
      simp [operationOf, hrst]
    obtain ⟨u, parts, phase, pos, whole⟩ := execAll_shift (posTyi s.pos) (posTxi s.pos)
      (posPlane s.pos) (posRow s.pos) (posCol s.pos) s
    refine ⟨u, parts, ?_⟩
    rw [operation, whole, State.countPixel_eq, phase, hphase, pos]
    rfl

/-- A component row is selected when it is among those of the levels and the phase. -/
theorem exists_component_iff (m : Mnemonic) (i : Inputs) (phase : Phase) (pos : Pos) :
    (∃ op ∈ components (controlWord i phase pos), op.mnemonic = m) ↔
      m ∈ selectedComponents i.rst i.outReady (posIdx pos == 0xFFF) phase := by
  simp [components, componentRows_filter_controlWord]

theorem pxread_mem_selectedComponents_iff (rst outReady last : Bool) (phase : Phase) :
    .pxread ∈ selectedComponents rst outReady last phase ↔ phase = .shift ∧ rst = false := by
  cases phase <;> revert rst outReady last <;> decide

theorem xfer_mem_selectedComponents_iff (rst outReady last : Bool) (phase : Phase) :
    .xfer ∈ selectedComponents rst outReady last phase ↔
      phase = .emit ∧ outReady = true ∧ rst = false := by
  cases phase <;> revert rst outReady last <;> decide

/-- What a step does with the history (43_tile_serializer.md rule R111). -/
theorem StepResult.stream_eq {s t : State} (h : StepResult s t) :
    t.stream =
      if s.sampled.rst = true then []
      else match s.phase with
        | .idle => if s.sampled.start = true then [] else s.stream
        | .shift => s.stream
        | .emit => if s.sampled.outReady = true then s.stream ++ [s.outDataPort] else s.stream := by
  cases h with
  | reset hrst => simp [hrst]
  | start hrst hphase hstart => simp [hrst, hphase, hstart]
  | idle hrst hphase hstart => simp [hrst, hphase, hstart]
  | shift hrst hphase => simp [hrst, hphase]
  | emit hrst hphase hready =>
    rw [State.settle_stream, State.nextByte_stream, hphase, if_neg (by simp [hrst])]
    exact (if_pos hready).symm
  | stall hrst hphase hready => simp [hrst, hphase, hready]

/-- Settles O28: each port is a function of the phase, `pos` and the accumulators, the selected
components are those of the levels and the phase, and the history follows the outcome of the
step. -/
theorem componentsDrivePorts : Obligations.ComponentsDrivePorts := by
  intro s
  have pxRe : s.outputs.pxRe = true ↔ s.phase = .shift := beq_iff_eq
  have outValid : s.outputs.outValid = true ↔ s.phase = .emit := beq_iff_eq
  have outData : s.outputs.outData = if (posPlane s.pos).toNat = 1 then s.acc1 else s.acc0 :=
    s.acc_eq _
  refine ⟨busy_eq_true_iff s, rfl, pxRe, pxAddrOf_toNat_eq .., outValid, outData, ?_, ?_, ?_,
    ⟨_, rfl, rfl⟩, ⟨_, rfl, rfl, fun hphase => (pxRe.mpr hphase).symm⟩, _, rfl, rfl⟩
  · rw [pxRe]
    exact (exists_component_iff ..).trans (pxread_mem_selectedComponents_iff ..)
  · rw [outValid]
    exact (exists_component_iff ..).trans (xfer_mem_selectedComponents_iff ..)
  · obtain ⟨t, ht⟩ := exists_stepResult s
    refine ⟨t, ht.step_eq, ?_⟩
    rw [ht.stream_eq]
    cases hrst : s.sampled.rst with
    | true => rfl
    | false =>
      cases hphase : s.phase with
      | idle => cases hstart : s.sampled.start <;> simp [State.outputs, State.busy, hphase]
      | shift => simp [State.outputs, State.busy, hphase]
      | emit => cases hready : s.sampled.outReady <;> simp [State.outputs, State.busy, hphase]

end Sys2Proof.Machine
end

section
/-! The host's writes to PIX (20_memory.md rules R33, R45): the last write to an entry is what a
step finds there. -/

namespace Sys2Proof.Machine

section
variable {w : Pixw} {m : Memory}

theorem Memory.hostWrites_append (before after : List HostWrite) :
    Memory.hostWrites w m (before ++ after) =
      Memory.hostWrites w (Memory.hostWrites w m before) after :=
  List.foldl_append

/-- An entry that no write names reads as before. -/
theorem Memory.read_hostWrites_of_ne {a : Nat} (hs : List HostWrite) :
    ∀ {m : Memory}, Memory.wf w m = true → (∀ x ∈ hs, x.addr.toNat ≠ a) →
      Memory.read (Memory.hostWrites w m hs) a = Memory.read m a := by
  induction hs with
  | nil => exact fun _ _ => rfl
  | cons x hs ih =>
    intro m hm others
    obtain ⟨hx, hrest⟩ := List.forall_mem_cons.mp others
    rw [Memory.hostWrites_cons, ih (Memory.hostWrite_wf hm x) hrest, Memory.read_hostWrite hm,
      if_neg hx.symm]

/-- An entry reads as what the last write that names it gave it. -/
theorem Memory.read_hostWrites_last (hm : Memory.wf w m = true) (before : List HostWrite)
    (x : HostWrite) {after : List HostWrite} (others : ∀ y ∈ after, y.addr ≠ x.addr) :
    Memory.read (Memory.hostWrites w m (before ++ x :: after)) x.addr.toNat = w.entry x.value := by
  have hbefore := Memory.hostWrites_wf before m hm
  rw [Memory.hostWrites_append, Memory.hostWrites_cons,
    Memory.read_hostWrites_of_ne after (Memory.hostWrite_wf hbefore x)
      fun y hy => BitVec.toNat_inj.not.mpr (others y hy),
    Memory.read_hostWrite hbefore, if_pos rfl]

end

theorem StepResult.pixw_eq {s t : State} (h : StepResult s t) : t.pixw = s.pixw := by
  cases h <;> simp

/-- Settles O32: a step leaves in PIX what the host's writes of its sample made of it. -/
theorem pixIsTheHosts : Obligations.PixIsTheHosts := by
  intro s t wf h
  have result := step_next_iff_stepResult.mp h
  have wf' := step_wf h wf
  refine ⟨result.pixw_eq, wf', fun a => ?_, fun hwrites => ?_, fun a others => ?_,
    fun before after w hwrites others => ?_⟩
  · rw [← result.pixw_eq]
    exact Memory.read_lt t.pix wf' a
  · rw [result.pix_eq, hwrites, Memory.hostWrites_nil]
  · rw [result.pix_eq, Memory.read_hostWrites_of_ne _ wf others]
  · rw [result.pix_eq, hwrites, Memory.read_hostWrites_last wf before w others]
    rfl

/-- Settles O40: SHIFT reads the entry after the host's write of its sample, of which the entry
keeps the two low bits. -/
theorem hostWriteSeenByLaterRead : Obligations.HostWriteSeenByLaterRead := by
  intro s w hphase wf hrst hwrites
  refine ⟨_, (StepResult.shift hrst hphase).step_eq, ?_⟩
  intro p
  have low : s.sample.memRead s.pxAddrPort % 4 = p % 4 := by
    rw [State.memRead, State.sample_pix, hwrites, Memory.hostWrites_cons, Memory.hostWrites_nil,
      Memory.read_hostWrite wf]
    by_cases same : s.pxAddrPort = w.addr
    · rw [if_pos (congrArg BitVec.toNat same), Pixw.entry_mod_four]
      exact congrArg (· % 4) (if_pos same).symm
    · rw [if_neg (BitVec.toNat_inj.not.mpr same)]
      exact congrArg (· % 4) (if_neg same).symm
  have bits := bitsOf_toNat p
  rw [State.packPixel_eq, bitsOf_eq_of_mod_four_eq low, State.settle_acc0, State.settle_acc1,
    State.countPixel_acc0, State.countPixel_acc1, packBit_toNat, packBit_toNat, bits.1, bits.2]
  exact ⟨rfl, rfl⟩

end Sys2Proof.Machine
end

section
/-! Single steps at the end of an invocation: a sink that is not ready holds the block
(40_bitplane_encoder.md rule R76), and after the last byte a START is taken at once (rule R84). -/

namespace Sys2Proof.Machine

section
variable {s t u : State}

theorem State.SameBlock.refl (s : State) : s.SameBlock s :=
  ⟨rfl, rfl, rfl, rfl, rfl, fun _ => rfl⟩

theorem State.SameBlock.trans (h : s.SameBlock t) (h' : t.SameBlock u) : s.SameBlock u :=
  ⟨h'.phase.trans h.phase, h'.pos.trans h.pos, h'.acc0.trans h.acc0, h'.acc1.trans h.acc1,
    h'.done.trans h.done, fun k => (h'.stream k).trans (h.stream k)⟩

/-- The ports show nothing but the block (10_state.md rule R18). -/
theorem State.SameBlock.outputs (h : s.SameBlock t) : t.outputs = s.outputs := by
  unfold State.outputs State.busy State.pxAddrPort State.outDataPort State.acc
  rw [h.phase, h.pos, h.acc0, h.acc1, h.done]

/-- In phase EMIT a step without reset and without a ready sink is a STALL. -/
theorem StepResult.sameBlock_of_not_ready (h : StepResult s t) (hphase : s.phase = .emit)
    (hrst : s.sampled.rst = false) (hready : s.sampled.outReady = false) : s.SameBlock t := by
  cases h with
  | reset hreset => rw [hrst] at hreset; cases hreset
  | start _ hidle | idle _ hidle => rw [hphase] at hidle; cases hidle
  | shift _ hshift => rw [hphase] at hshift; cases hshift
  | emit _ _ htaken => rw [hready] at htaken; cases htaken
  | stall => exact ⟨rfl, rfl, rfl, rfl, rfl, fun _ => rfl⟩

theorem visited_sameBlock {sched : Nat → Inputs} (hphase : s.phase = .emit) {n : Nat}
    (hsink : ∀ k < n, (sched k).rst = false ∧ (sched k).outReady = false) :
    s.SameBlock (s.visited sched n) := by
  induction n with
  | zero => exact .refl s
  | succ n ih =>
    have before := ih fun k hk => hsink k (by omega)
    obtain ⟨hrst, hready⟩ := hsink n (Nat.lt_succ_self n)
    have held := (visited_step s sched n).sameBlock_of_not_ready
      (before.phase.trans hphase) hrst hready
    exact before.trans { held with }

end

/-- Settles O38: each step is a STALL, which keeps the block and so the ports. -/
theorem unreadySinkHoldsBlock : Obligations.UnreadySinkHoldsBlock := by
  intro n s sched hphase hsink
  have held := visited_sameBlock hphase hsink
  obtain ⟨queue, run⟩ := run_scheduled s sched (le_refl n)
  refine ⟨_, run, { held with }, held.outputs, ?_, ?_⟩
  · exact beq_iff_eq.mpr (held.phase.trans hphase)
  · exact (congrArg Outputs.outData held.outputs).trans (s.acc_eq _)

/-- Settles O39: the EMIT of the last byte leaves phase IDLE with `done` set, where the next
sample's `start` selects START. -/
theorem backToBackInvocations : Obligations.BackToBackInvocations := by
  intro s i j rest hphase hlast hinputs hrst hready hrst' hstart
  have sampled := State.sampled_cons s i (j :: rest) hinputs
  have last := StepResult.emit (sampled ▸ hrst) hphase (sampled ▸ hready)
  rw [hlast, State.nextByte_last] at last
  refine ⟨_, _, last.step_eq, rfl, rfl, ⟨rfl, rfl, rfl, rfl, rfl⟩,
    (StepResult.start ?_ rfl ?_).step_eq, rfl, rfl, rfl, rfl, rfl⟩
  all_goals
    rw [State.sampled_cons _ j rest (congrArg List.tail hinputs)]
    assumption

end Sys2Proof.Machine
end

section
/-! An invocation under a sink that is always ready makes headway in each step
(70_reset_and_hazards.md rule R171). -/

namespace Sys2Proof.Machine

section
variable {s : State} {sched : Nat → Inputs}

/-- Without a STALL each step is one pixel or one byte. -/
theorem BusyStep.work_of_ready {t : State} {m : Mnemonic} (h : BusyStep true s t m) :
    t.work = s.work + 1 := by
  unfold State.work
  cases h with
  | shift hpixels hlength => omega
  | emit hpixels hlength => omega
  | stall _ _ _ hready => cases hready

/-- A busy block has work left: nine for each byte. -/
theorem State.Inv.work_lt (h : s.Inv) (hbusy : s.phase ≠ .idle) : s.work < 36864 := by
  have few := h.length_lt hbusy
  have turns := s.turns_le
  unfold State.work State.pixels
  omega

section
variable (hidle : s.phase = .idle) (hstart : (sched 0).start = true)
  (hund : undisturbed s sched) (hready : ∀ n < 36865, (sched n).outReady = true)
include hidle hstart hund hready

theorem work_visited {m : Nat} (hm : 1 ≤ m) (hle : m ≤ 36865)
    (hbusy : ∀ k, 1 ≤ k → k < m → (s.visited sched k).phase ≠ .idle) :
    (s.visited sched m).work + 1 = m := by
  induction m, hm using Nat.le_induction with
  | base => rw [visited_one hidle hstart hund]; rfl
  | succ m hm ih =>
    have before := ih (by omega) fun k hk hkm => hbusy k hk (by omega)
    have hrun : s.running sched m :=
      (running_iff s sched m).mpr fun k hk hkm => hbusy k hk (by omega)
    have result := visited_busyStep hund hm hrun
    rw [hready m (by omega)] at result
    rw [result.work_of_ready, before]

/-- After 36865 steps no work is left. -/
theorem lt_of_running {m : Nat} (hrun : s.running sched m) : m < 36865 := by
  by_contra! hle
  have hbusy (k : Nat) (hk : 1 ≤ k) (hkm : k ≤ 36865) : (s.visited sched k).phase ≠ .idle :=
    (running_iff s sched m).mp hrun k hk (by omega)
  have work := work_visited hidle hstart hund hready (by decide) le_rfl
    fun k hk hkm => hbusy k hk hkm.le
  have progress := progress_visited hidle hstart hund (by decide) fun k hk hkm => hbusy k hk hkm.le
  have left := progress.encoding.inv.work_lt (hbusy 36865 (by decide) le_rfl)
  omega

/-- A sink that is ready as long as the invocation can last takes every byte offered. -/
theorem sinkTakes_of_ready : sinkTakes s sched := fun m _ hrun _ _ =>
  ⟨m, le_rfl, hready m (lt_of_running hidle hstart hund hready hrun)⟩

end

end

/-- Settles O37: the work of a whole invocation is 32768 pixels and 4096 bytes, and each step after
START does one of them. -/
theorem readySinkStepCount : Obligations.ReadySinkStepCount := by
  intro s sched hidle hstart hund hready
  obtain ⟨l, hl, hbusy, -, hcompleted, hwhole⟩ :=
    exists_last_emit hidle hstart hund (sinkTakes_of_ready hidle hstart hund hready)
  have hrun : s.running sched l :=
    (running_iff s sched l).mpr fun k hk hkl => hbusy k hk (by omega)
  have bound := lt_of_running hidle hstart hund hready hrun
  have work : (s.visited sched (l + 1)).work + 1 = l + 1 :=
    work_visited hidle hstart hund hready (by omega) bound hbusy
  have steps : l + 1 = 36865 := by
    rw [← work, State.work, State.pixels, hwhole, turns_of_idle hcompleted.1]
  have final := progress_visited hidle hstart hund (by omega) hbusy
  obtain ⟨queue, run⟩ := run_scheduled s sched (le_refl (l + 1))
  rw [steps] at run final hcompleted hwhole
  exact ⟨_, run, hcompleted, final.bytes hwhole⟩

end Sys2Proof.Machine
end

section
/-! The order of the accesses of an invocation (20_memory.md rule R40, 43_tile_serializer.md rule
R118): `pos` of a SHIFT is the number of pixels shifted in, `idx` of an EMIT that of bytes
transferred. -/

namespace Sys2Proof.Machine

/-- The SHIFT operation at position `k`. -/
def shiftAt (k : Nat) : Instr :=
  let p : Pos := BitVec.ofNat 15 k
  .shift (posTyi p) (posTxi p) (posPlane p) (posRow p) (posCol p)

/-- The EMIT operation of byte `k`. -/
def emitAt (k : Nat) : Instr :=
  let p : Pos := BitVec.ofNat 15 (8 * k)
  .emit (posTyi p) (posTxi p) (posPlane p) (posRow p)

/-- The SHIFT operations among `ops` are those of the pixels of `t` in order, the EMIT operations
those of its bytes. -/
structure InOrder (ops : List Instr) (t : State) : Prop where
  shifts : ops.filter (·.mnemonic = .shift) = (List.range t.pixels).map shiftAt
  emits : ops.filter (·.mnemonic = .emit) = (List.range t.stream.length).map emitAt

section
variable {s t : State}

theorem State.Inv.pos_of_shift (h : s.Inv) (hphase : s.phase = .shift) :
    s.pos = BitVec.ofNat 15 s.pixels := by
  have pixels : s.pixels = s.pos.toNat := by
    rw [State.pixels, turns_of_shift hphase, h.busyLength (.inl hphase), posIdx_toNat,
      posCol_toNat, Nat.div_add_mod]
  rw [pixels, BitVec.ofNat_toNat, BitVec.setWidth_eq]

theorem State.Inv.pos_of_emit (h : s.Inv) (hphase : s.phase = .emit) :
    s.pos = BitVec.ofNat 15 (8 * s.stream.length) := by
  have column := congrArg BitVec.toNat (h.emitCol hphase)
  rw [posCol_toNat] at column
  have bytes : 8 * s.stream.length = s.pos.toNat := by
    rw [h.busyLength (.inr hphase), posIdx_toNat]
    exact Nat.mul_div_cancel' (Nat.dvd_of_mod_eq_zero column)
  rw [bytes, BitVec.ofNat_toNat, BitVec.setWidth_eq]

/-- A busy block without reset shifts in the next pixel, transfers the next byte or stalls. -/
theorem operationOf_of_busy {i : Inputs} (h : s.Inv) (hrst : i.rst = false)
    (hbusy : s.phase ≠ .idle) :
    operationOf i s.phase s.pos = shiftAt s.pixels ∨
      operationOf i s.phase s.pos = emitAt s.stream.length ∨
      (operationOf i s.phase s.pos).mnemonic = .stall := by
  cases hphase : s.phase with
  | idle => exact absurd hphase hbusy
  | shift =>
    left
    rw [shiftAt, ← h.pos_of_shift hphase]
    simp [operationOf, hrst]
  | emit =>
    right
    cases hready : i.outReady with
    | true =>
      left
      rw [emitAt, ← h.pos_of_emit hphase]
      simp [operationOf, hrst, hready]
    | false =>
      right
      simp [operationOf, hrst, hready, Instr.mnemonic]

theorem InOrder.of_busyStep {ready : Bool} {ops : List Instr} {op : Instr} (h : InOrder ops s)
    (hop : op = shiftAt s.pixels ∨ op = emitAt s.stream.length ∨ op.mnemonic = .stall)
    (ht : BusyStep ready s t op.mnemonic) : InOrder (ops ++ [op]) t := by
  obtain ⟨-, pixels, length, -⟩ := ht.counts
  constructor
  · rw [List.filter_append, h.shifts, pixels]
    rcases hop with rfl | rfl | stall
    · exact (congrArg (List.map shiftAt) List.range_succ).trans List.map_append |>.symm
    · exact List.append_nil _
    · simp [stall]
  · rw [List.filter_append, h.emits, length]
    rcases hop with rfl | rfl | stall
    · exact List.append_nil _
    · exact (congrArg (List.map emitAt) List.range_succ).trans List.map_append |>.symm
    · simp [stall]

end

section
variable (s : State) (sched : Nat → Inputs)

/-- The operation that step `k` of a schedule performs. -/
def State.operationAt (k : Nat) : Instr :=
  operationOf (sched k) (s.visited sched k).phase (s.visited sched k).pos

theorem operations_visited_eq (m n : Nat) : ∀ k,
    operations m ((s.visited sched k).scheduled (fun j => sched (k + j)) (m + n)) =
      (List.range m).map fun j => s.operationAt sched (k + j) := by
  induction m with
  | zero => intro k; rfl
  | succ m ih =>
    intro k
    rw [Nat.succ_add, operations_succ_of_step (step_scheduled s sched k (m + n)), ih (k + 1),
      scheduled_sampled, List.range_succ_eq_map, List.map_cons, List.map_map]
    simp [State.operationAt, Function.comp_def, Nat.add_assoc, Nat.add_comm 1]

/-- The operations of a run on `n` queued samples of a schedule. -/
theorem operations_scheduled_eq (n : Nat) :
    operations n (s.scheduled sched n) = (List.range n).map (s.operationAt sched) := by
  have ops := operations_visited_eq s sched n 0 0
  simp only [Nat.zero_add] at ops
  exact ops

end

theorem inOrder_visited {s : State} {sched : Nat → Inputs} (hidle : s.phase = .idle)
    (hstart : (sched 0).start = true) (hund : undisturbed s sched) {m : Nat} (hm : 1 ≤ m)
    (hbusy : ∀ k, 1 ≤ k → k < m → (s.visited sched k).phase ≠ .idle) :
    InOrder ((List.range m).map (s.operationAt sched)) (s.visited sched m) := by
  induction m, hm using Nat.le_induction with
  | base =>
    have first : (s.operationAt sched 0).mnemonic = .start := performed_zero hidle hstart hund
    rw [visited_one hidle hstart hund, List.range_one, List.map_singleton]
    exact ⟨by simp [first, pixels_of_start], by simp [first]⟩
  | succ m hm ih =>
    have hrun : s.running sched m :=
      (running_iff s sched m).mpr fun k hk hkm => hbusy k hk (by omega)
    have before : ∀ k, 1 ≤ k → k < m → (s.visited sched k).phase ≠ .idle :=
      fun k hk hkm => hbusy k hk (by omega)
    have inv := (progress_visited hidle hstart hund hm before).encoding.inv
    rw [List.range_succ, List.map_append]
    have next := operationOf_of_busy inv (hund m hrun).1 (hbusy m hm m.lt_succ_self)
    exact (ih before).of_busyStep next (visited_busyStep hund hm hrun)

/-- Settles O36: a whole invocation has 32768 pixels and 4096 bytes, each with its own operation. -/
theorem invocationAccessOrder : Obligations.InvocationAccessOrder := by
  intro s sched hidle hstart hund hsinks
  have hsink : sinkTakes s sched := hsinks.elim (·.sinkTakes s) id
  obtain ⟨l, hl, hbusy, -, hcompleted, hwhole⟩ := exists_last_emit hidle hstart hund hsink
  have order : InOrder _ (s.visited sched (l + 1)) :=
    inOrder_visited hidle hstart hund (by omega) hbusy
  have pixels : (s.visited sched (l + 1)).pixels = 32768 := by
    rw [State.pixels, turns_of_idle hcompleted.1, hwhole]
  obtain ⟨queue, run⟩ := run_scheduled s sched (le_refl (l + 1))
  refine ⟨l + 1, _, run, hcompleted, ?_⟩
  rw [operations_scheduled_eq]
  exact ⟨order.shifts.trans (by rw [pixels]; rfl), order.emits.trans (by rw [hwhole]; rfl)⟩

end Sys2Proof.Machine
end

section
/-! The two positions of an entry (20_memory.md rule R40): they differ in `plane`, bit 6 of
`pos`. -/

namespace Sys2Proof.Machine

theorem exists_pxAddrOf (a : PixAddr) : ∃ tyi txi row col, pxAddrOf tyi txi row col = a := by
  refine ⟨a.extractLsb' 10 4, a.extractLsb' 3 4, a.extractLsb' 7 3, a.extractLsb' 0 3, ?_⟩
  apply BitVec.eq_of_toNat_eq
  simp only [pxAddrOf_toNat, BitVec.extractLsb'_toNat, Nat.shiftRight_eq_div_pow]
  omega

theorem posOf_plane_one (tyi txi : TileIndex) (row col : Offset3) :
    posOf tyi txi 1 row col = posOf tyi txi 0 row col + 64 := by
  apply BitVec.eq_of_toNat_eq
  rw [BitVec.toNat_add, posOf_toNat, posOf_toNat]
  bv_omega

/-- Settles O42: the address fixes every field of `pos` but `plane`. -/
theorem eachEntryReadTwice : Obligations.EachEntryReadTwice := by
  intro a
  obtain ⟨tyi, txi, row, col, rfl⟩ := exists_pxAddrOf a
  refine ⟨posOf tyi txi 0 row col, ?_, fun q => ⟨fun h => ?_, ?_⟩⟩
  · rw [posOf_toNat]
    bv_omega
  · obtain ⟨htyi, htxi, hrow, hcol⟩ := pxAddrOf_inj_iff.mp h
    rw [← posOf_plane_one, ← posOf_fields q, htyi, htxi, hrow, hcol]
    exact (plane_cases (posPlane q)).imp (congrArg (posOf tyi txi · row col))
      (congrArg (posOf tyi txi · row col))
  · rw [← posOf_plane_one]
    rintro (rfl | rfl) <;> simp

/-- Settles O45: after eight or more PACKs every bit is one of those packed. -/
theorem eightPacksOverwrite : Obligations.EightPacksOverwrite := by
  intro A B bs long
  apply BitVec.eq_of_getLsbD_eq
  intro j hj
  rw [foldl_packBit_getLsbD A bs hj, foldl_packBit_getLsbD B bs hj, if_pos (by omega),
    if_pos (by omega)]

end Sys2Proof.Machine
end

section
/-! The stream of the reference algorithm: its length (40_bitplane_encoder.md rule R79) and its
bytes as sums over the columns (20_memory.md rule R35). -/

namespace Sys2Proof.Machine

/-- Settles O47: one byte for each offset of the table. -/
theorem encodeLength : Obligations.EncodeLength := by
  intro buffer width height hwidth hheight
  have table := encodeBuffer_eq_map buffer (width / 8) (height / 8)
  rw [Nat.mul_div_cancel' (Nat.dvd_of_mod_eq_zero hwidth),
    Nat.mul_div_cancel' (Nat.dvd_of_mod_eq_zero hheight)] at table
  rw [table, List.length_map, List.length_range]
  ring

/-- A number that takes in one bit at the bottom per turn is the sum of the bits, each moved up once
for every later turn. -/
theorem shiftIn_eq_sum {byte bit : Nat → Nat} (start : byte 0 = 0)
    (turn : ∀ k, byte (k + 1) = 2 * byte k + bit k) (n : Nat) :
    byte n = ((List.range n).map fun c => bit c <<< (n - 1 - c)).sum := by
  induction n with
  | zero => exact start
  | succ n ih =>
    have moved : (List.range n).map (fun c => bit c <<< (n + 1 - 1 - c)) =
        (List.range n).map fun c => 2 * bit c <<< (n - 1 - c) := by
      refine List.map_congr_left fun c hc => ?_
      have later : n + 1 - 1 - c = n - 1 - c + 1 := by
        have := List.mem_range.mp hc
        omega
      rw [later, Nat.shiftLeft_succ]
    rw [turn, ih, List.range_succ, List.map_append, List.sum_append, moved, List.sum_map_mul_left]
    simp

theorem rowByte_eq_streamValue (buffer : Nat → Nat → Nat) (tyi txi : Nat) {p : Nat} (hp : p < 2)
    (r : Nat) : rowByte buffer (8 * txi) (8 * tyi + r) p = streamValue buffer tyi txi p r := by
  have turn := fun k =>
    (rowBytes_succ buffer (8 * txi) (8 * tyi + r) k).trans (rowStep_eq ..)
  rw [streamValue]
  simp only [bitP_eq]
  rcases (by omega : p = 0 ∨ p = 1) with rfl | rfl
  · simp only [pow_zero, Nat.div_one]
    exact shiftIn_eq_sum (byte := fun k => (rowBytes buffer (8 * txi) (8 * tyi + r) k).1) rfl
      (fun k => congrArg Prod.fst (turn k)) 8
  · simp only [pow_one]
    exact shiftIn_eq_sum (byte := fun k => (rowBytes buffer (8 * txi) (8 * tyi + r) k).2) rfl
      (fun k => congrArg Prod.snd (turn k)) 8

/-- The offsets of a stream are the numbers below its length. -/
theorem streamOffset_lt {wt ht tyi txi p r : Nat} (htyi : tyi < ht) (htxi : txi < wt) (hp : p < 2)
    (hr : r < 8) : streamOffset wt tyi txi p r < ht * wt * 16 := by
  have tiles : (tyi + 1) * wt ≤ ht * wt := Nat.mul_le_mul_right wt htyi
  rw [Nat.succ_mul] at tiles
  unfold streamOffset
  omega

/-- The tile, the plane and the row of a byte are the digits of its offset. -/
theorem streamOffset_eq_iff {wt tyi txi p r n : Nat} (htxi : txi < wt) (hp : p < 2) (hr : r < 8) :
    streamOffset wt tyi txi p r = n ↔
      tyi = n / 16 / wt ∧ txi = n / 16 % wt ∧ p = n / 8 % 2 ∧ r = n % 8 := by
  constructor
  · rintro rfl
    have tile : streamOffset wt tyi txi p r / 16 = txi + wt * tyi := by
      rw [streamOffset, Nat.mul_comm wt]
      omega
    rw [tile, Nat.add_mul_div_left _ _ (by omega), Nat.div_eq_of_lt htxi, Nat.add_mul_mod_self_left,
      Nat.mod_eq_of_lt htxi, Nat.zero_add]
    unfold streamOffset
    omega
  · rintro ⟨rfl, rfl, rfl, rfl⟩
    rw [streamOffset, Nat.div_add_mod']
    omega

/-- Settles O48: the table of the stream at the offset of a byte, and the digits of an offset. -/
theorem streamContent : Obligations.StreamContent := by
  intro buffer wt ht hwt hht
  refine ⟨fun tyi htyi txi htxi p hp r hr => ?_, fun n hn => ?_⟩
  · have byte := encodeBuffer_getD_streamOffset buffer htyi htxi hp hr
    have inStream : streamOffset wt tyi txi p r <
        (encodeBuffer buffer (8 * wt) (8 * ht)).length := by
      rw [encodeBuffer_eq_map, List.length_map, List.length_range, ← Nat.mul_assoc]
      exact streamOffset_lt htyi htxi hp hr
    rw [List.getD_eq_getElem _ _ inStream, rowByte_eq_streamValue _ _ _ hp] at byte
    rw [List.getElem?_eq_getElem inStream, byte]
  · have tile : n / 16 < wt * ht := by
      rw [Nat.mul_comm wt]
      exact Nat.div_lt_of_lt_mul (by rwa [Nat.mul_comm])
    have htyi : n / 16 / wt < ht := Nat.div_lt_of_lt_mul tile
    have htxi : n / 16 % wt < wt := Nat.mod_lt _ hwt
    have hp : n / 8 % 2 < 2 := Nat.mod_lt _ (by decide)
    have hr : n % 8 < 8 := Nat.mod_lt _ (by decide)
    refine ⟨(n / 16 / wt, n / 16 % wt, n / 8 % 2, n % 8),
      ⟨htyi, htxi, hp, hr, (streamOffset_eq_iff htxi hp hr).mpr ⟨rfl, rfl, rfl, rfl⟩⟩, ?_⟩
    rintro ⟨tyi, txi, p, r⟩ ⟨-, htxi, hp, hr, offset⟩
    obtain ⟨rfl, rfl, rfl, rfl⟩ := (streamOffset_eq_iff htxi hp hr).mp offset
    rfl

end Sys2Proof.Machine
end
